-- ==== Sys2Proof/Word.lean ====
section
/-! DEFINITION. The one width of this hardware: the byte (R5, R11), and a line of raw bytes (R34). -/

namespace Sys2Proof

/-- A byte: an opcode, a stack cell, an input value, an output value (R5). Bit 0 is its least significant bit. -/
abbrev Byte := BitVec 8

/-- One input line (R34) or one assembler source line (R48): its raw bytes. -/
abbrev Line := List Byte

end Sys2Proof
end

