-- ==== Sys2Proof/Syntax.lean ====
section
/-! DEFINITION. The instruction set: four instructions, none with an operand in its encoding (R1, R41, R42). -/

namespace Sys2Proof

/-- One constructor per row of the opcode table (R42). Every operand is implicit (R41). -/
inductive Instr where
  /-- READ (R71). -/
  | read
  /-- PRINT (R75). -/
  | print
  /-- ADD (R79). -/
  | add
  /-- HALT (R63). -/
  | halt
  deriving DecidableEq, Repr

end Sys2Proof
end

