-- ==== Sys2Proof/WellFormed.lean ====
section
/-! DEFINITION. Which instructions, bytes and buffers are well formed. -/

namespace Sys2Proof

/-- An instruction carries no field (R41), so each of the four is well formed. -/
def Instr.wellFormed : Instr → Bool
  | .read => true
  | .print => true
  | .add => true
  | .halt => true

/-- The four byte values that are opcodes; the other 252 are illegal (R44). Stated beside the decoder, not through
it: `0x01`, `0x02`, `0x03`, `0xFF`. -/
def isOpcode (b : Byte) : Bool :=
  b == 0x01#8 || b == 0x02#8 || b == 0x03#8 || b == 0xFF#8

/-- A buffer in which every byte is an opcode: what the assembler emits (R57). The hardware accepts any buffer
(R25), so this is no premise of a run. -/
def onlyOpcodes (buffer : List Byte) : Bool :=
  buffer.all isOpcode

end Sys2Proof
end

