-- ==== Sys2Proof/Decode.lean ====
section
/-! DEFINITION. The decoder ROM (R43), decoding of a byte sequence, and the encoder (R47). -/

namespace Sys2Proof

/-- What the decoder ROM answers for a byte: one of the four operations, or Unknown (R43). -/
inductive Decoded where
  | op (i : Instr)
  | unknown
  deriving DecidableEq, Repr

/-- `Decode(b)`, total on the 256 byte values, all 8 bits matched (R43). -/
def decodeByte (b : Byte) : Decoded :=
  if b = 0x01#8 then .op .read
  else if b = 0x02#8 then .op .print
  else if b = 0x03#8 then .op .add
  else if b = 0xFF#8 then .op .halt
  else .unknown

/-- Why a byte sequence does not begin with an instruction. -/
inductive Reject where
  /-- There is no byte. -/
  | noByte
  /-- The first byte is none of the four opcodes (R44). -/
  | unknownOpcode (b : Byte)
  deriving DecidableEq, Repr

/-- Reads one instruction off the front of a byte sequence: one byte, always (R40, R46). -/
def decode : List Byte → Except Reject (Instr × List Byte)
  | [] => .error .noByte
  | b :: rest =>
    match decodeByte b with
    | .op i => .ok (i, rest)
    | .unknown => .error (.unknownOpcode b)

/-- Decodes a whole buffer, every byte an instruction boundary (R46). The machine never does this (validation is
lazy, R45); it serves the statements about encodings. -/
def decodeBuffer : List Byte → Except Reject (List Instr)
  | [] => .ok []
  | b :: rest =>
    match decodeByte b with
    | .unknown => .error (.unknownOpcode b)
    | .op i =>
      match decodeBuffer rest with
      | .ok is => .ok (i :: is)
      | .error r => .error r

/-- The opcode of an instruction, `Encode(m)` (R42, R47). -/
def encodeByte : Instr → Byte
  | .read => 0x01#8
  | .print => 0x02#8
  | .add => 0x03#8
  | .halt => 0xFF#8

/-- The bytes of an instruction: format OP8, one byte (R40). -/
def encode (i : Instr) : List Byte := [encodeByte i]

/-- The bytes of a sequence of instructions, in order (R27 (b)). -/
def encodeBuffer : List Instr → List Byte
  | [] => []
  | i :: is => encode i ++ encodeBuffer is

/-- The lowest `nbits` bits of `w` as bytes, the first byte the least significant; at least one byte. -/
def wordBytes (nbits w : Nat) : List Byte :=
  (List.range (max 1 (nbits / 8))).map fun j => BitVec.ofNat 8 ((w % 2 ^ nbits) / 2 ^ (8 * j))

/-- The instruction the decoder reads from an opcode-table word. -/
def decodeTableWord (nbits w : Nat) : Option Instr :=
  match decode (wordBytes nbits w) with
  | .ok (i, _) => some i
  | .error _ => none

end Sys2Proof
end

