-- ==== Sys2Proof/Machine/State.lean ====
section
/-! DEFINITION. The state of the core, of its environment and of its parameters; the ways a step can stop; reset. -/

namespace Sys2Proof.Machine

/-- The program space as cells (index, byte), strictly rising (R24 (a), R26). -/
abbrev Memory := List Host.Cell

/-- The three fault causes of the core (R15, R83). They are values of `run`, not stops of the model (R96). -/
inductive Cause where
  /-- PRINT with an empty stack; status 2. -/
  | underflowPrint
  /-- ADD with fewer than two values; status 2. -/
  | underflowAdd
  /-- A fetched byte that is no opcode; status 3; the byte is recorded. -/
  | unknownOpcode (b : Byte)
  deriving DecidableEq, Repr

/-- The run state: one running state and two kinds of terminal state (R15, R59). -/
inductive RunState where
  | running
  | halted
  | faulted (c : Cause)
  deriving DecidableEq, Repr

/-- What stands after the last input line (R34): end-of-input, or nothing that ever arrives. -/
inductive InputTail where
  | eoi
  | pending
  deriving DecidableEq, Repr

/-- Everything the spec gives the machine (R7), its environment (R21) and its run's parameters (R20, R5). -/
structure State where
  /-- The Instruction Pointer: index of the next byte to fetch (R9). -/
  ip : Nat
  /-- The stack, top first (R10, R11; log 23). -/
  stack : List Byte
  /-- The run state (R15). -/
  run : RunState
  /-- The program space, the Bytecode Buffer `Prog` (R20, R25, R26; log 1, log 2). -/
  prog : Memory
  /-- `LEN`, supplied out of band (R25; log 1). -/
  progLen : Nat
  /-- The lines of the input environment, each without its terminator (R34; log 1). -/
  lines : List Line
  /-- What follows the last line (R34; log 1). -/
  tail : InputTail
  /-- The input cursor: how many lines have been consumed (R21, R34). -/
  k : Nat
  /-- The output history `Out`, oldest byte first (R21, R36). -/
  out : List Byte
  deriving DecidableEq, Repr

/-- Stops of the model that are no state of the core. -/
inductive Fault where
  /-- Raised by the fetch (`fsmStep`) when `ip` is below `LEN` and the program space lists no byte at `ip`. No
  loaded buffer gives such a state, and the spec gives the access no value (R26). Safe: the model stops. -/
  | noProgramByte
  deriving DecidableEq, Repr

/-- Refusals. No arm of `exec` uses one. -/
inductive Refusal where
  /-- Raised by an arm of `exec` whose instruction has no meaning yet: none. Safe: the model stops. -/
  | notModelled (mnemonic : String)
  deriving DecidableEq, Repr

/-- The machine right after reset: the values of R23. The parameters of a run (`prog`, `progLen`, `lines`, `tail`)
have no reset value in the spec: an empty buffer and an input that has ended (DESIGN CHOICE, unsafe, log 4). -/
def State.reset : State where
  ip := 0
  stack := []
  run := .running
  prog := []
  progLen := 0
  lines := []
  tail := .eoi
  k := 0
  out := []

end Sys2Proof.Machine
end

