-- ==== Sys2Proof/Machine/Flags.lean ====
section
/-! DEFINITION. The core has no flags, condition codes or predicates (R17, R82). What a flag would record, the carry
out of bit 7, exists only inside the ALU's 9-bit sum (R80) and no state holds it. -/

namespace Sys2Proof.Machine

/-- The ALU's 9-bit intermediate `zext_9(a) + zext_9(b)`, 0 to 510 (R80). -/
def sum9 (a b : Byte) : BitVec 9 := a.setWidth 9 + b.setWidth 9

/-- Bit 8 of the sum: the carry that ADD drops (R80). No instruction and no field of State records it. -/
def carryLost (a b : Byte) : Bool := (sum9 a b).getLsbD 8

end Sys2Proof.Machine
end

