-- ==== Sys2Proof/Machine/Ops.lean ====
section
/-! DEFINITION. The named operations over the program space, the stack, `ip`, the ports and the run state. -/

namespace Sys2Proof.Machine

/-! ### The program space (R24 (a), R26) -/

/-- What an index that is not listed reads as: no byte (DESIGN CHOICE, safe, log 2). -/
def Memory.unlisted (_index : Nat) : Option Byte := none

/-- The byte at an index. -/
def Memory.read : Memory → Nat → Option Byte
  | [], a => Memory.unlisted a
  | (x, v) :: m, a => if x = a then some v else Memory.read m a

/-- Lists a byte at an index, keeping the indices in rising order. -/
def Memory.insert : Memory → Nat → Byte → Memory
  | [], a, v => [(a, v)]
  | (x, u) :: m, a, v =>
    if a < x then (a, v) :: (x, u) :: m
    else if a = x then (a, v) :: m
    else (x, u) :: Memory.insert m a v

/-- Removes what is listed at an index. -/
def Memory.erase (m : Memory) (a : Nat) : Memory :=
  m.filter fun c => c.1 != a

/-- The host writes a byte of the buffer (no instruction does: R31). Writing what an unlisted index reads as removes
the entry, so the form stays canonical. -/
def Memory.write (m : Memory) (a : Nat) (v : Byte) : Memory :=
  if Memory.unlisted a = some v then m.erase a else m.insert a v

/-- The indices rise strictly. -/
def Memory.rising : Memory → Bool
  | [] => true
  | [_] => true
  | c :: d :: m => decide (c.1 < d.1) && Memory.rising (d :: m)

/-- The canonical form: strictly rising indices, and no entry equal to what an unlisted index reads as. -/
def Memory.wf (m : Memory) : Bool :=
  m.rising && m.all fun c => Memory.unlisted c.1 != some c.2

/-- A byte sequence laid out from an index upward. -/
def Memory.ofBytesFrom (base : Nat) : List Byte → Memory
  | [] => []
  | b :: bs => (base, b) :: Memory.ofBytesFrom (base + 1) bs

/-- A Bytecode Buffer, index 0 first, verbatim (R25, R27 (c)). -/
def Memory.ofBytes (buffer : List Byte) : Memory := Memory.ofBytesFrom 0 buffer

/-! ### `ip` and the fetch (R9, R26, R61) -/

/-- `Prog[ip]` (R26). -/
def State.fetch (s : State) : Option Byte := s.prog.read s.ip

/-- The fetch increment, the only change of `ip` besides reset (R9 (c), R61). -/
def State.advanceIp (s : State) : State := { s with ip := s.ip + 1 }

/-! ### The stack (R10 to R13) -/

/-- The number of values on the stack (R10). -/
def State.depth (s : State) : Nat := s.stack.length

/-- `push(v)`, for a natural number, masked with `& 0xFF` (R12). -/
def State.push (s : State) (v : Nat) : State :=
  { s with stack := BitVec.ofNat 8 (v &&& 0xFF) :: s.stack }

/-- `pop()`: the top value and the stack without it; no answer on an empty stack, for which R13 defines none. -/
def State.pop (s : State) : Option (Byte × State) :=
  match s.stack with
  | [] => none
  | v :: rest => some (v, { s with stack := rest })

/-! ### The input port (R34) -/

/-- What `InputLine()` answers (R34). -/
inductive InputResult where
  /-- The next line, and the state with the cursor past it. -/
  | line (l : Line) (s : State)
  /-- End-of-input; the cursor does not move. -/
  | eoi
  /-- It does not return: no line, and the input has not ended. -/
  | hold
  deriving DecidableEq, Repr

/-- `InputLine()` (R34). End-of-input, once seen, is seen by every later call (D8; log 12). -/
def State.inputLine (s : State) : InputResult :=
  match s.lines[s.k]? with
  | some l => .line l { s with k := s.k + 1 }
  | none =>
    match s.tail with
    | .eoi => .eoi
    | .pending => .hold

/-! ### The output port (R36) -/

/-- `Output(b)`: one byte, written and flushed (R36, R77). The sink always accepts it (D10; log 14). -/
def State.output (s : State) (b : Byte) : State := { s with out := s.out ++ [b] }

/-! ### Ending a run (R15, R60, R63, R89) -/

/-- `halt()`. -/
def State.halt (s : State) : State := { s with run := .halted }

/-- Fault entry, `raise Fault(cause)`: `run` and nothing else; nothing is saved, no handler exists (R89). There is
no return from a fault (R90): only the host's reset (`State.hostReset`) leaves a terminal state. -/
def State.raiseFault (s : State) (c : Cause) : State := { s with run := .faulted c }

end Sys2Proof.Machine
end

