-- ==== Sys2Proof/Machine/Operands.lean ====
section
/-! DEFINITION. The operand forms of this hardware, all implicit (R41): the top of the stack, the top two of the
stack, and the value of the next input line. -/

namespace Sys2Proof.Machine

/-- The operand of PRINT: the top value, or nothing when `depth = 0` (R75). -/
def State.popOne (s : State) : Option (Byte × State) :=
  if s.depth = 0 then none else s.pop

/-- The operands of ADD: `a` the topmost and `b` the next, both removed; nothing, and nothing popped, when
`depth < 2` (R79, R81). -/
def State.popTwo (s : State) : Option (Byte × Byte × State) :=
  if s.depth < 2 then none
  else
    match s.pop with
    | none => none
    | some (a, t) =>
      match t.pop with
      | none => none
      | some (b, u) => some (a, b, u)

/-- The value a line gives: its first raw byte, 0 for an empty line; the rest is discarded (R71). -/
def lineValue : Line → Byte
  | [] => 0x00#8
  | b :: _ => b

/-- What READ finds at the input port. -/
inductive ReadOperand where
  /-- A value, and the state after it was taken. -/
  | value (v : Byte) (s : State)
  /-- Nothing yet, and no end (R72). -/
  | hold
  deriving DecidableEq, Repr

/-- The operand of READ: the next line's value, 0 at end-of-input, or a hold (R71, R72, R73). -/
def State.readOperand (s : State) : ReadOperand :=
  match s.inputLine with
  | .line l t => .value (lineValue l) t
  | .eoi => .value 0x00#8 s
  | .hold => .hold

end Sys2Proof.Machine
end

