-- ==== Sys2Proof/Machine/Alu.lean ====
section
/-! DEFINITION. The 8-bit ALU and ADD (R79 to R82). -/

namespace Sys2Proof.Machine

/-- The ALU's only operation: bits 7:0 of the 9-bit sum (R80). -/
def aluAdd (a b : Byte) : Byte := (sum9 a b).setWidth 8

/-- ADD (R79, R81), the fetch increment first (R61; log 17). -/
def execAdd (s : State) : Host.Outcome State Fault Refusal :=
  match s.advanceIp.popTwo with
  | none => .next (s.advanceIp.raiseFault .underflowAdd)
  | some (a, b, t) => .next (t.push (aluAdd a b).toNat)

end Sys2Proof.Machine
end

