-- ==== Sys2Proof/Machine/Control.lean ====
section
/-! DEFINITION. The control FSM's endings: HALT (R63), the implicit halt (R60), the unknown opcode (R85). -/

namespace Sys2Proof.Machine

/-- HALT (R63), the fetch increment first (R61; log 17). -/
def execHalt (s : State) : Host.Outcome State Fault Refusal :=
  .next s.advanceIp.halt

/-- End of buffer: `run` becomes `halted`, nothing is fetched and nothing else changes (R60). -/
def implicitHalt (s : State) : State := s.halt

/-- A fetched byte that is no opcode: `ip` is past it, and the fault records it (R61, R85). -/
def takeUnknownOpcode (s : State) (b : Byte) : State :=
  s.advanceIp.raiseFault (.unknownOpcode b)

end Sys2Proof.Machine
end

