-- ==== Sys2Proof/Machine/Io.lean ====
section
/-! DEFINITION. The I/O instructions READ (R71 to R74) and PRINT (R75 to R77). -/

namespace Sys2Proof.Machine

/-- READ (R71, R73), the fetch increment first (R61; log 17). When the input holds, the whole step does not happen,
the fetch increment included: the state is answered as it was (R65, R72, conflict C9; log 5). -/
def execRead (s : State) : Host.Outcome State Fault Refusal :=
  match s.advanceIp.readOperand with
  | .hold => .next s
  | .value v t => .next (t.push v.toNat)

/-- PRINT (R75, R76), the fetch increment first (R61; log 17). -/
def execPrint (s : State) : Host.Outcome State Fault Refusal :=
  match s.advanceIp.popOne with
  | none => .next (s.advanceIp.raiseFault .underflowPrint)
  | some (v, t) => .next (t.output v)

end Sys2Proof.Machine
end

