-- ==== Sys2Proof/Machine/Dispatch.lean ====
section
/-! DEFINITION. One arm per instruction (R62). -/

namespace Sys2Proof.Machine

def exec (i : Instr) (s : State) : Host.Outcome State Fault Refusal :=
  match i with
  | .read => Sys2Proof.Machine.execRead s
  | .print => Sys2Proof.Machine.execPrint s
  | .add => Sys2Proof.Machine.execAdd s
  | .halt => Sys2Proof.Machine.execHalt s

end Sys2Proof.Machine
end

