-- ==== Sys2Proof/Machine/Fsm.lean ====
section
/-! DEFINITION. One step of the fetch and control FSM (R59, R65), and placing a word where it fetches. -/

namespace Sys2Proof.Machine

/-- A terminal state: `halted` or `faulted` (R15). -/
def State.terminal (s : State) : Bool :=
  match s.run with
  | .running => false
  | .halted => true
  | .faulted _ => true

/-- The step of a running core, in the order of R65: the end-of-buffer check (R60), the fetch (R61), decode and
dispatch (R62). -/
def runningStep (s : State) : Host.Outcome State Fault Refusal :=
  if s.progLen ≤ s.ip then .next (implicitHalt s)
  else
    match s.fetch with
    | none => .fault .noProgramByte
    | some b =>
      match decodeByte b with
      | .op i => exec i s
      | .unknown => .next (takeUnknownOpcode s b)

/-- One step. A terminal state is absorbing: the step answers it unchanged (R64; log 6). -/
def fsmStep (s : State) : Host.Outcome State Fault Refusal :=
  if s.terminal then .next s else runningStep s

/-- READ would be the next instruction and neither a line nor the end of input is there: the core has no enabled
step (R72). -/
def State.holding (s : State) : Bool :=
  !s.terminal && decide (s.ip < s.progLen) && (s.fetch == some 0x01#8) && (s.inputLine == .hold)

/-- The core has a step to take: it is not terminal and does not hold (R65, R72). -/
def State.enabled (s : State) : Bool := !s.terminal && !s.holding

/-- The next step fetches a byte: the core is enabled and `ip` is below `LEN` (R9, R61). -/
def State.fetches (s : State) : Bool := s.enabled && decide (s.ip < s.progLen)

/-- A word of the opcode table placed at `ip`: `LEN` reaches past it, and the core is running (log 3, log 20). -/
def State.placeWord (s : State) (nbits w : Nat) : State :=
  { s with
    prog := s.prog.write s.ip (BitVec.ofNat 8 (w % 2 ^ nbits))
    progLen := max s.progLen (s.ip + 1)
    run := .running }

end Sys2Proof.Machine
end

