-- ==== Sys2Proof/Machine/Step.lean ====
section
/-! DEFINITION. The step, and the state in which the next step runs a given word. -/

namespace Sys2Proof.Machine

/-- One pass of the fetch-decode-execute loop (R65). -/
def step (s : State) : Host.Outcome State Fault Refusal := fsmStep s

/-- `s` with an opcode-table word where the next step fetches (log 3, log 20). -/
def State.withFetchWord (s : State) (nbits w : Nat) : State := s.placeWord nbits w

end Sys2Proof.Machine
end

