-- ==== Sys2Proof/Config.lean ====
section
/-! DEFINITION. What an implementation fixes: the two sizes the spec leaves as open parameters of a hardware
realisation (R5, D3, D4). The machine of this model has an unbounded index and an unbounded stack, so no step reads
them; Safety.lean says which programs a realisation runs. There is no free value here: the spec leaves no result open. -/

namespace Sys2Proof

/-- The open size parameters of one hardware realisation (R5): `IP_WIDTH` and `STACK_DEPTH`. -/
structure Realisation where
  /-- Number of bits of the instruction pointer register (R9 (d)). -/
  ipWidth : Nat
  /-- Number of cells of the stack (R14). -/
  stackDepth : Nat
  deriving DecidableEq, Repr

end Sys2Proof
end

