-- ==== Sys2Proof/Machine/Assembler.lean ====
section
/-! DEFINITION. The assembler, the toolchain contract of R47 to R58: a pure function from source lines to a Bytecode
Buffer or an error. It is software outside the hardware block (R3, D1; log 24), and no step uses it. Source lines are
ASCII bytes (R58, D18; log 18). -/

namespace Sys2Proof.Machine

/-- The four whitespace characters: space, tab, carriage return, newline (R49). -/
def isSpace (b : Byte) : Bool :=
  b == 0x20#8 || b == 0x09#8 || b == 0x0D#8 || b == 0x0A#8

/-- Whitespace removed from both ends, none from the middle (R49). -/
def trim (l : Line) : Line :=
  ((l.dropWhile isSpace).reverse.dropWhile isSpace).reverse

/-- The `#` that begins a comment (R50). -/
def commentMark : Byte := 0x23#8

/-- The four mnemonics as bytes (R47, R58). -/
def mnemonicKey : Instr → Line
  | .read => [0x52#8, 0x45#8, 0x41#8, 0x44#8]
  | .print => [0x50#8, 0x52#8, 0x49#8, 0x4E#8, 0x54#8]
  | .add => [0x41#8, 0x44#8, 0x44#8]
  | .halt => [0x48#8, 0x41#8, 0x4C#8, 0x54#8]

/-- The mnemonic-to-operation direction of the table: the whole text must equal a key (R47, R51). -/
def lookupMnemonic (text : Line) : Option Instr :=
  if text = mnemonicKey .read then some .read
  else if text = mnemonicKey .print then some .print
  else if text = mnemonicKey .add then some .add
  else if text = mnemonicKey .halt then some .halt
  else none

/-- What the assembler makes of one line. -/
inductive LineClass where
  /-- Blank or comment: no byte, no error (R50). -/
  | skip
  /-- An accepted instruction line (R51, R52). -/
  | instr (i : Instr)
  /-- Any other line, with its trimmed text (R53). -/
  | bad (text : Line)
  deriving DecidableEq, Repr

/-- Steps 1 to 3: trim, skip blank and comment lines, look the whole trimmed line up (R49, R50, R51). -/
def classifyLine (l : Line) : LineClass :=
  match trim l with
  | [] => .skip
  | c :: cs =>
    if c = commentMark then .skip
    else
      match lookupMnemonic (c :: cs) with
      | some i => .instr i
      | none => .bad (c :: cs)

/-- `AssembleError{line_number, line_text}` (R48, R53). -/
structure AssembleError where
  /-- 1-based, counting every line (R54). -/
  lineNumber : Nat
  /-- The trimmed text. -/
  lineText : Line
  deriving DecidableEq, Repr

/-- The lines from number `n` on: one pass, stopping at the first bad line, nothing returned beside the error
(R48, R52, R53, R54). -/
def assembleFrom (n : Nat) : List Line → Except AssembleError (List Byte)
  | [] => .ok []
  | l :: ls =>
    match classifyLine l with
    | .skip => assembleFrom (n + 1) ls
    | .bad text => .error { lineNumber := n, lineText := text }
    | .instr i =>
      match assembleFrom (n + 1) ls with
      | .ok bytes => .ok (encodeByte i :: bytes)
      | .error e => .error e

/-- `assemble(lines)` (R48). -/
def assemble (source : List Line) : Except AssembleError (List Byte) := assembleFrom 1 source

/-- The assembler's exit status: 1 on failure, the one status the core never produces (R53, R92). The spec states no
status of a successful assembly, whose caller gets a buffer back (R3): the model answers none (DESIGN CHOICE, safe,
log 25). -/
def assembleStatus : Except AssembleError (List Byte) → Option Nat
  | .ok _ => none
  | .error _ => some 1

end Sys2Proof.Machine
end

