-- ==== Sys2Proof/Machine/Events.lean ====
section
/-! DEFINITION. A run as the host sees it: one totally ordered sequence of events (R32). -/

namespace Sys2Proof.Machine

/-- The three kinds of event (R32). -/
inductive Event where
  /-- `In(line)`: a READ takes a line. -/
  | inLine (l : Line)
  /-- `In(EOI)`: a READ sees end-of-input. -/
  | inEoi
  /-- `Out(b)`: a PRINT writes its byte. -/
  | out (b : Byte)
  /-- `Exit(status)`: the run ends. -/
  | exit (status : Nat)
  deriving DecidableEq, Repr

/-- The event an instruction makes at a state, from its own rule (R71, R75, R79, R63). -/
def instrEvents (s : State) : Instr → List Event
  | .read =>
    match s.inputLine with
    | .line l _ => [.inLine l]
    | .eoi => [.inEoi]
    | .hold => []
  | .print =>
    match s.stack with
    | [] => [.exit 2]
    | v :: _ => [.out v]
  | .add => if s.depth < 2 then [.exit 2] else []
  | .halt => [.exit 0]

/-- The events of one step. -/
def stepEvents (s : State) : List Event :=
  if s.terminal then []
  else if s.progLen ≤ s.ip then [.exit 0]
  else
    match s.fetch with
    | none => []
    | some b =>
      match decodeByte b with
      | .op i => instrEvents s i
      | .unknown => [.exit 3]

/-- The events of `n` steps, in order; a model stop ends them. -/
def trace : Nat → State → List Event
  | 0, _ => []
  | n + 1, s =>
    stepEvents s ++
      match step s with
      | .next t => trace n t
      | .fault _ => []
      | .refused _ => []

/-- The output byte of an event. -/
def Event.outByte : Event → Option Byte
  | .out b => some b
  | _ => none

/-- The line of an event. -/
def Event.inputLine : Event → Option Line
  | .inLine l => some l
  | _ => none

/-- The status of an event. -/
def Event.exitStatus : Event → Option Nat
  | .exit n => some n
  | _ => none

end Sys2Proof.Machine
end

