-- ==== Sys2Proof/Machine/InputPort.lean ====
section
/-! DEFINITION. The input port byte by byte: how a byte stream is cut into the lines of R34 (R35), and READ as a
machine that takes one transfer at a time (the derived machine of R38's last paragraph). -/

namespace Sys2Proof.Machine

/-- The line terminator, the single byte 0x0A (R35, D6; log 10). 0x0D is data. -/
def lineTerminator : Byte := 0x0A#8

/-- The lines of a stream, `acc` being the bytes of the line begun so far. Bytes after the last terminator form a
line exactly when the input ends there (R35 (b), D7; log 11). -/
def cutFrom (tail : InputTail) (acc : Line) : List Byte → List Line
  | [] =>
    match tail with
    | .pending => []
    | .eoi => if acc = [] then [] else [acc]
  | b :: bs => if b = lineTerminator then acc :: cutFrom tail [] bs else cutFrom tail (acc ++ [b]) bs

/-- The lines of a stream `S` that then ends (`eoi`) or just stops (`pending`); the tail of the input environment is
the same `tail` (R35). -/
def cutStream (tail : InputTail) (stream : List Byte) : List Line := cutFrom tail [] stream

/-- What one READ at the byte level ends in. -/
inductive ByteRead where
  /-- The value it pushes and the transfers not yet taken. -/
  | got (v : Byte) (rest : List Byte)
  /-- It waits for a transfer that never comes. -/
  | hold
  deriving DecidableEq, Repr

/-- Takes and discards transfers up to and including the next terminator, or up to the end of the input. -/
def skipLine (tail : InputTail) (v : Byte) : List Byte → ByteRead
  | [] =>
    match tail with
    | .eoi => .got v []
    | .pending => .hold
  | b :: bs => if b = lineTerminator then .got v bs else skipLine tail v bs

/-- READ on single transfers (20_memory.md, end of section 8). -/
def readTransfers (tail : InputTail) : List Byte → ByteRead
  | [] =>
    match tail with
    | .eoi => .got 0x00#8 []
    | .pending => .hold
  | b :: bs => if b = lineTerminator then .got 0x00#8 bs else skipLine tail b bs

end Sys2Proof.Machine
end

