-- ==== Sys2Proof/Machine/HostOps.lean ====
section
/-! DEFINITION. What the host does to the machine (R97, R98, R99, R104). No step does any of it. -/

namespace Sys2Proof.Machine

/-- The host loads a Bytecode Buffer verbatim and presents its length (R25, R98 (1)). -/
def State.loadProgram (s : State) (buffer : List Byte) : State :=
  { s with prog := Memory.ofBytes buffer, progLen := buffer.length }

/-- The host connects an input environment, before a run (R34, R98 (2)). -/
def State.connectInput (s : State) (lines : List Line) (tail : InputTail) : State :=
  { s with lines := lines, tail := tail, k := 0 }

/-- The start of a run of a buffer in an input environment: the reset state with both in place (R23, R98). -/
def State.start (buffer : List Byte) (lines : List Line) (tail : InputTail) : State :=
  (State.reset.loadProgram buffer).connectInput lines tail

/-- Reset, in any state (R97, D22; log 15): the reset values of R23. The program stays in place; lines already
consumed are not delivered again, and `k` and `Out` count from the new run's own start (R99). -/
def State.hostReset (s : State) : State :=
  { s with ip := 0, stack := [], run := .running, lines := s.lines.drop s.k, k := 0, out := [] }

/-- The same machine on a console that delivers `more` after the lines `s` has, and ends as `tail` says (R104: the
host supplies input at any time or never; log 13). It relates two input environments; a run's own is fixed (R34). -/
def State.supplyInput (s : State) (more : List Line) (tail : InputTail) : State :=
  { s with lines := s.lines ++ more, tail := tail }

end Sys2Proof.Machine
end

