-- ==== Sys2Proof/Machine/Ports.lean ====
section
/-! DEFINITION. What the core shows the host: the status port, the cause (R37), and the host's rendering of it (R93).
The signals of R38 are not normative; the ones that are functions of the state at a step's boundary are here
(log 19). -/

namespace Sys2Proof.Machine

/-- `status(run)`: 0, 2 or 3; a run that has not ended has no status (R15, R92). -/
def statusOf : RunState → Option Nat
  | .running => none
  | .halted => some 0
  | .faulted .underflowPrint => some 2
  | .faulted .underflowAdd => some 2
  | .faulted (.unknownOpcode _) => some 3

/-- The status port (R37). -/
def State.statusPort (s : State) : Option Nat := statusOf s.run

/-- The diagnostic output: the fault cause (R37, D13). -/
def State.causePort (s : State) : Option Cause :=
  match s.run with
  | .faulted c => some c
  | _ => none

/-- `done`: `run` is not `running` (R38). -/
def State.donePort (s : State) : Bool := s.terminal

/-- `prog_addr`: the index being fetched, only ever below `LEN` (R38). -/
def State.progAddrPort (s : State) : Option Nat :=
  if !s.terminal && decide (s.ip < s.progLen) then some s.ip else none

/-- `in_req` while the core waits: a READ that holds (R38, R72). -/
def State.inputRequestPort (s : State) : Bool := s.holding

/-- A hex digit, in upper or lower case. -/
def hexDigit (upper : Bool) (d : Nat) : Char :=
  if d < 10 then Char.ofNat (0x30 + d)
  else Char.ofNat ((if upper then 0x41 else 0x61) + (d - 10))

/-- Two hex digits. -/
def hexByte (upper : Bool) (b : Byte) : String :=
  String.ofList [hexDigit upper (b.toNat / 16), hexDigit upper (b.toNat % 16)]

/-- The host's message for a cause (R83, R93). The casing of the hex digits is no contract (U1): it is an argument,
and a claim holds for both values (log 16). The core writes no message to any port. -/
def Cause.message (upper : Bool) : Cause → String
  | .underflowPrint => "stack underflow in PRINT"
  | .underflowAdd => "stack underflow in ADD"
  | .unknownOpcode b => "unknown opcode 0x" ++ hexByte upper b

end Sys2Proof.Machine
end

