-- ==== Sys2Proof/Machine/Run.lean ====
section
/-! DEFINITION. Many steps, and the source's operation `run(bytecode)` with its implicit input (R68, conflict C7). -/

namespace Sys2Proof.Machine

/-- `n` steps, stopping at a stop of the model. -/
def steps : Nat → State → Host.Outcome State Fault Refusal
  | 0, s => .next s
  | n + 1, s =>
    match step s with
    | .next t => steps n t
    | .fault r => .fault r
    | .refused r => .refused r

/-- How many of the next `n` steps fetch a byte (R9, R61). -/
def fetchCount : Nat → State → Nat
  | 0, _ => 0
  | n + 1, s =>
    (if s.fetches then 1 else 0) +
      match step s with
      | .next t => fetchCount n t
      | .fault _ => 0
      | .refused _ => 0

/-- What a run leaves behind (R21, R68): the run state, whose status is `statusOf run` (none while a READ holds for
ever), the output history and the input cursor. -/
structure RunResult where
  run : RunState
  out : List Byte
  k : Nat
  deriving DecidableEq, Repr

/-- The part of a state that outlives the run (R21, R22). -/
def State.result (s : State) : RunResult := { run := s.run, out := s.out, k := s.k }

/-- `run(bytecode)`: from the start, `LEN + 1` steps, which is enough for every run that ends (R68, R69). -/
def runBuffer (buffer : List Byte) (lines : List Line) (tail : InputTail) : Option RunResult :=
  match steps (buffer.length + 1) (State.start buffer lines tail) with
  | .next t => some t.result
  | .fault _ => none
  | .refused _ => none

/-- The same operation without a machine: the buffer is consumed from the front, no `ip` and no memory. `taken` and
`out` are what has been consumed and written so far. It is the clear form that `runBuffer` is compared with (R65,
R68). -/
def interpret (tail : InputTail) (stack : List Byte) (pendingLines : List Line) (taken : Nat) (out : List Byte) :
    List Byte → RunResult
  | [] => { run := .halted, out := out, k := taken }
  | op :: rest =>
    match decodeByte op with
    | .unknown => { run := .faulted (.unknownOpcode op), out := out, k := taken }
    | .op .halt => { run := .halted, out := out, k := taken }
    | .op .read =>
      match pendingLines, tail with
      | l :: ls, _ => interpret tail (lineValue l :: stack) ls (taken + 1) out rest
      | [], .eoi => interpret tail (0x00#8 :: stack) [] taken out rest
      | [], .pending => { run := .running, out := out, k := taken }
    | .op .print =>
      match stack with
      | v :: below => interpret tail below pendingLines taken (out ++ [v]) rest
      | [] => { run := .faulted .underflowPrint, out := out, k := taken }
    | .op .add =>
      match stack with
      | a :: b :: below => interpret tail ((a + b) :: below) pendingLines taken out rest
      | _ => { run := .faulted .underflowAdd, out := out, k := taken }

end Sys2Proof.Machine
end

