-- ==== Sys2Proof/Safety.lean ====
section
/-! DEFINITION. What a state of a run looks like, and what a safe run is, in the terms the statements use. -/

namespace Sys2Proof

/-- The programs a hardware realisation runs: `LEN` is representable (D3) and the stack has a cell for every READ byte
(R14, D4). A program outside is refused by the realisation, not wrapped. -/
def Realisation.fits (r : Realisation) (buffer : List Byte) : Bool :=
  decide (buffer.length < 2 ^ r.ipWidth) && decide (buffer.count 0x01#8 ≤ r.stackDepth)

end Sys2Proof

namespace Sys2Proof.Machine

/-- How many of the bytes `Prog[0 .. n-1]` equal `op` (R14's count). -/
def Memory.countBelow (m : Memory) (op : Byte) (n : Nat) : Nat :=
  (List.range n).countP fun a => m.read a == some op

/-- The program space holds a byte at each index below `LEN` and none from `LEN` on (R26, R30). -/
def State.programLoaded (s : State) : Prop :=
  (∀ a, a < s.progLen → (s.prog.read a).isSome = true) ∧ (∀ a, s.progLen ≤ a → s.prog.read a = none)

/-- Every byte before `ip` is one of the three opcodes that let a run go on: what holds while a core runs. -/
def State.pastCompleted (s : State) : Prop :=
  ∀ a, a < s.ip → s.prog.read a = some 0x01#8 ∨ s.prog.read a = some 0x02#8 ∨ s.prog.read a = some 0x03#8

/-- The invariant of a run (R9, R10, R14, R15, R26). -/
structure State.Inv (s : State) : Prop where
  /-- The program space keeps its canonical form. -/
  memWf : s.prog.wf = true
  /-- The program space holds exactly the bytes of the buffer. -/
  loaded : s.programLoaded
  /-- `ip` never exceeds `LEN` (R9 (d)). -/
  ipLe : s.ip ≤ s.progLen
  /-- No more lines are consumed than there are (R34). -/
  kLe : s.k ≤ s.lines.length
  /-- `depth` is at most the number of READ bytes passed (R14). -/
  depthLe : s.depth ≤ s.prog.countBelow 0x01#8 s.ip
  /-- At most one output byte for each PRINT byte passed (R36). -/
  outLe : s.out.length ≤ s.prog.countBelow 0x02#8 s.ip
  /-- At most one line for each READ byte passed (R71). -/
  kReads : s.k ≤ s.prog.countBelow 0x01#8 s.ip
  /-- The byte an unknown-opcode fault records is no opcode, and it is the byte before `ip` (R15, R85). -/
  causeByte : ∀ b, s.run = .faulted (.unknownOpcode b) →
    isOpcode b = false ∧ 0 < s.ip ∧ s.prog.read (s.ip - 1) = some b
  /-- While the core runs, every byte before `ip` was executed, and the stack holds what READ pushed less what PRINT
  and ADD took (R9 (c), R10). -/
  running : s.run = .running →
    s.pastCompleted ∧
    s.depth + s.prog.countBelow 0x02#8 s.ip + s.prog.countBelow 0x03#8 s.ip = s.prog.countBelow 0x01#8 s.ip ∧
    s.out.length = s.prog.countBelow 0x02#8 s.ip

/-- The state with the byte at one index of the program space replaced: for statements about bytes that do not
matter (R70). No step and no host action during a run does it (R31, D16). -/
def State.withByte (s : State) (a : Nat) (v : Byte) : State := { s with prog := s.prog.write a v }

end Sys2Proof.Machine
end

