-- ==== Sys2Proof/Certificates/Slice0/Obligations.lean ====
section
/-! DEFINITION. The statements for the provers. "log n" is notes/assumptions/n.md. -/

section
open Sys2Proof Sys2Proof.Machine

/-! ### Reset and the invariant of a run -/

/-- R23: the reset values, at reset and at the start of every run; the entry point is index 0. -/
def Obligations.ResetLeavesTheStatedValues : Prop :=
  (State.reset.ip = 0 ∧ State.reset.stack = [] ∧ State.reset.depth = 0 ∧ State.reset.run = .running ∧
    State.reset.k = 0 ∧ State.reset.out = []) ∧
  ∀ (buffer : List Byte) (lines : List Line) (tail : InputTail),
    (State.start buffer lines tail).ip = 0 ∧ (State.start buffer lines tail).stack = [] ∧
    (State.start buffer lines tail).depth = 0 ∧ (State.start buffer lines tail).run = .running ∧
    (State.start buffer lines tail).k = 0 ∧ (State.start buffer lines tail).out = [] ∧
    (State.start buffer lines tail).fetch = buffer[0]?

/-- A loaded buffer is read back verbatim, nothing is listed from `LEN` on, and `LEN` is its length (R25; that the
length travels beside the buffer is decision D2, log 1, and an unlisted index reads as no byte by log 2). -/
def Obligations.LoadedBufferReadsBackVerbatim : Prop :=
  ∀ (buffer : List Byte) (s : State) (a : Nat),
    (s.loadProgram buffer).prog.read a = buffer[a]? ∧ (s.loadProgram buffer).progLen = buffer.length ∧
    (s.loadProgram buffer).prog.wf = true ∧ (s.loadProgram buffer).programLoaded

/-- The run invariant holds at reset. -/
def Obligations.RunInvariantAtReset : Prop := State.reset.Inv

/-- The run invariant holds at the start of every run, whatever the buffer and the input. -/
def Obligations.RunInvariantAtEveryStart : Prop :=
  ∀ (buffer : List Byte) (lines : List Line) (tail : InputTail), (State.start buffer lines tail).Inv

/-- Every step keeps the run invariant, from every state that has it: the program space canonical and complete,
`ip ≤ LEN`, `k` within the lines, `depth` at most the READ bytes passed, the exact account of the stack and the output
while running, and the recorded byte of an unknown-opcode fault. -/
def Obligations.EveryStepKeepsTheRunInvariant : Prop :=
  ∀ s t : State, s.Inv → step s = .next t → t.Inv

/-- A realisation whose sizes fit the buffer is never outgrown in any run of it: the stack fits in `STACK_DEPTH`
cells and `ip` in `IP_WIDTH` bits (decisions D3 and D4; log 7, log 8). -/
def Obligations.FittingRealisationIsNeverOutgrown : Prop :=
  ∀ (r : Realisation) (buffer : List Byte) (lines : List Line) (tail : InputTail) (n : Nat) (t : State),
    r.fits buffer = true → steps n (State.start buffer lines tail) = .next t →
    t.depth ≤ r.stackDepth ∧ t.ip < 2 ^ r.ipWidth

/-! ### The stack primitives -/

/-- `push`: the masked value on top, `depth` one more, everything else as it was; `v mod 256` is the mask. -/
def Obligations.PushMasksAndAppends : Prop :=
  ∀ (s : State) (v : Nat),
    s.push v = { s with stack := BitVec.ofNat 8 (v % 256) :: s.stack } ∧ (s.push v).depth = s.depth + 1

/-- R13: `pop` returns and removes the top, `depth` one less, and has no answer on an empty stack; the instructions
that pop check `depth` first and then pop nothing. -/
def Obligations.PopTakesTheTop : Prop :=
  (∀ (s : State) (v : Byte) (rest : List Byte), s.stack = v :: rest →
    s.pop = some (v, { s with stack := rest }) ∧ ({ s with stack := rest } : State).depth + 1 = s.depth) ∧
  (∀ s : State, s.depth = 0 → s.pop = none ∧ s.popOne = none ∧ s.popTwo = none) ∧
  (∀ s : State, s.depth < 2 → s.popTwo = none) ∧
  (∀ s : State, 1 ≤ s.depth → s.popOne = s.pop) ∧
  (∀ (s : State) (v : Nat), (s.push v).pop = some (BitVec.ofNat 8 v, s))

/-- `n` READs and then `n` PRINTs write the first bytes of the `n` lines in reverse: last in, first out (conflict
C1). -/
def Obligations.ReadsThenPrintsReverseTheLines : Prop :=
  ∀ (s : State) (ls more : List Line), s.run = .running → s.lines.drop s.k = ls ++ more →
    s.ip + 2 * ls.length ≤ s.progLen →
    (∀ j, j < ls.length → s.prog.read (s.ip + j) = some 0x01#8) →
    (∀ j, j < ls.length → s.prog.read (s.ip + ls.length + j) = some 0x02#8) →
    steps (2 * ls.length) s = .next { s with
      ip := s.ip + 2 * ls.length
      k := s.k + ls.length
      out := s.out ++ (ls.map lineValue).reverse }

/-- No instruction reads a value below the second from the top: whatever lies there, the result is the same, with it
untouched. -/
def Obligations.NothingBelowTheSecondIsRead : Prop :=
  ∀ (i : Instr) (s : State) (a b : Byte), ∃ (t : State) (top : List Byte), ∀ deep : List Byte,
    exec i { s with stack := a :: b :: deep } = .next { t with stack := top ++ deep }

/-- The change of `depth`: READ +1 when it completes, PRINT and ADD -1 when they do not fault, HALT and every fault
0. -/
def Obligations.DepthChangesAsStated : Prop :=
  ∀ (s t : State),
    (exec .read s = .next t → t.depth = if s.inputLine = .hold then s.depth else s.depth + 1) ∧
    (exec .print s = .next t → t.depth = s.depth - 1) ∧
    (exec .add s = .next t → t.depth = if s.depth < 2 then s.depth else s.depth - 1) ∧
    (exec .halt s = .next t → t.depth = s.depth) ∧
    (∀ c, s.run = .running → step s = .next t → t.run = .faulted c → t.stack = s.stack)

/-! ### Encoding -/

/-- R43: the decoder ROM on all 256 byte values; Unknown for exactly 252 of them. -/
def Obligations.DecoderRomAnswersAsTheTable : Prop :=
  (∀ b : Byte,
    (decodeByte b = .op .read ↔ b = 0x01#8) ∧ (decodeByte b = .op .print ↔ b = 0x02#8) ∧
    (decodeByte b = .op .add ↔ b = 0x03#8) ∧ (decodeByte b = .op .halt ↔ b = 0xFF#8) ∧
    (decodeByte b = .unknown ↔ b ≠ 0x01#8 ∧ b ≠ 0x02#8 ∧ b ≠ 0x03#8 ∧ b ≠ 0xFF#8)) ∧
  ((List.range 256).filter fun n => decodeByte (BitVec.ofNat 8 n) = .unknown).length = 252

/-- A few words written out from the spec's binary column decode to the instruction they stand for, and neighbours in
one bit do not. -/
def Obligations.WrittenOutWordsDecode : Prop :=
  decodeTableWord 8 0b00000001 = some .read ∧ decodeTableWord 8 0b00000010 = some .print ∧
  decodeTableWord 8 0b00000011 = some .add ∧ decodeTableWord 8 0b11111111 = some .halt ∧
  decodeTableWord 8 0b10000001 = none ∧ decodeTableWord 8 0b00010001 = none ∧
  decodeTableWord 8 0b01111111 = none ∧ decodeTableWord 8 0b00000000 = none

/-- The two directions of the opcode table are inverse on the four entries, and the mnemonic lookup is exact: the four
keys in upper case and nothing else. That the keys are the ASCII bytes of their letters is decision D18, log 18. -/
def Obligations.OpcodeTableDirectionsAreInverse : Prop :=
  (∀ i : Instr, decodeByte (encodeByte i) = .op i) ∧
  (∀ (b : Byte) (i : Instr), decodeByte b = .op i → encodeByte i = b) ∧
  (∀ i : Instr, lookupMnemonic (mnemonicKey i) = some i) ∧
  (∀ (text : Line) (i : Instr), lookupMnemonic text = some i → text = mnemonicKey i) ∧
  mnemonicKey .read = "READ".toList.map (fun c => BitVec.ofNat 8 c.toNat) ∧
  mnemonicKey .print = "PRINT".toList.map (fun c => BitVec.ofNat 8 c.toNat) ∧
  mnemonicKey .add = "ADD".toList.map (fun c => BitVec.ofNat 8 c.toNat) ∧
  mnemonicKey .halt = "HALT".toList.map (fun c => BitVec.ofNat 8 c.toNat)

/-- Whole buffers: encoding a sequence of instructions and decoding it gives the sequence back, a buffer decodes only
to the sequence that encodes to it, and it decodes exactly when every byte is an opcode; the first byte that is none is
the one named. -/
def Obligations.BuffersAndInstructionSequencesAgree : Prop :=
  (∀ is : List Instr, decodeBuffer (encodeBuffer is) = .ok is ∧ (encodeBuffer is).length = is.length) ∧
  (∀ (buffer : List Byte) (is : List Instr), decodeBuffer buffer = .ok is ↔ encodeBuffer is = buffer) ∧
  (∀ buffer : List Byte, onlyOpcodes buffer = true ↔ ∃ is, decodeBuffer buffer = .ok is) ∧
  (∀ (buffer : List Byte) (r : Reject), decodeBuffer buffer = .error r ↔
    ∃ before b after, buffer = before ++ b :: after ∧ onlyOpcodes before = true ∧ isOpcode b = false ∧
      r = .unknownOpcode b)

/-! ### The step -/

/-- R65: the whole step of a running core, in its order: the end-of-buffer check, the fetch with its increment, the
dispatch; a READ that holds does not happen at all (the step has no next state but the state itself). -/
def Obligations.StepFollowsItsPseudocode : Prop :=
  ∀ s : State, s.run = .running →
    (s.progLen ≤ s.ip → step s = .next s.halt) ∧
    (∀ b, s.ip < s.progLen → s.prog.read s.ip = some b →
      (∀ i, decodeByte b = .op i → step s = exec i s) ∧
      (∀ i, decodeByte b = .op i → s.holding = false → ∃ t, exec i s = .next t ∧ t.ip = s.ip + 1) ∧
      (decodeByte b = .unknown → step s = .next (s.advanceIp.raiseFault (.unknownOpcode b))) ∧
      (decodeByte b = .op .read → s.inputLine = .hold → ∀ t, step s = .next t → t = s))

/-- When the byte at `ip` decodes to a well-formed instruction, the step is that instruction's meaning at that state
(which contains the fetch increment, log 17); and the state `withFetchWord` gives runs the word placed there. -/
def Obligations.StepRunsTheDecodedInstruction : Prop :=
  (∀ (s : State) (b : Byte) (i : Instr) (rest : List Byte), s.run = .running → s.ip < s.progLen →
    s.prog.read s.ip = some b → decode (b :: rest) = .ok (i, rest) → i.wellFormed = true →
    step s = exec i s) ∧
  (∀ (s : State) (i : Instr),
    step (s.withFetchWord 8 (encodeByte i).toNat) = exec i (s.withFetchWord 8 (encodeByte i).toNat))

/-- R60: at the end of the buffer the run halts with status 0; `ip`, the stack and everything else stay, nothing is
read or written; the empty buffer ends at once with no output, for every input. -/
def Obligations.EndOfBufferHaltsWithStatusZero : Prop :=
  (∀ s : State, s.run = .running → s.progLen ≤ s.ip →
    step s = .next { s with run := .halted } ∧
    ({ s with run := .halted } : State).statusPort = some 0 ∧ stepEvents s = [.exit 0]) ∧
  (∀ (lines : List Line) (tail : InputTail),
    runBuffer [] lines tail = some { run := .halted, out := [], k := 0 })

/-- R61: a step that fetches increments `ip`, for every byte, whether the operation completes, halts or faults; a READ
that holds takes no step at all (it has no next state but the state itself). -/
def Obligations.FetchIncrementsIpForEveryByte : Prop :=
  ∀ (s : State) (b : Byte), s.run = .running → s.ip < s.progLen → s.prog.read s.ip = some b →
    (s.holding = false → ∃ t, step s = .next t ∧ t.ip = s.ip + 1) ∧
    (s.holding = true → ∀ t, step s = .next t → t = s)

/-- R59: the run starts running; the only transitions are running to running, to halted (HALT or end of buffer) and
to faulted (too few values, or an unknown byte); a waiting READ is still running. -/
def Obligations.RunStateTransitions : Prop :=
  State.reset.run = .running ∧
  ∀ s t : State, step s = .next t →
    (s.run ≠ .running → t.run = s.run) ∧
    (s.holding = true → s.run = .running ∧ t = s) ∧
    (s.run = .running →
      (t.run = .halted ↔ s.progLen ≤ s.ip ∨ (s.ip < s.progLen ∧ s.prog.read s.ip = some 0xFF#8)) ∧
      ((∃ c, t.run = .faulted c) ↔ s.ip < s.progLen ∧
        ((s.prog.read s.ip = some 0x02#8 ∧ s.depth = 0) ∨ (s.prog.read s.ip = some 0x03#8 ∧ s.depth < 2) ∨
          ∃ b, s.prog.read s.ip = some b ∧ isOpcode b = false)))

/-- A step answers its own state exactly when the core is not enabled: it is terminal, or a READ holds (that a
terminal or held core's step answers the same state is log 5 and log 6). -/
def Obligations.StepMovesExactlyWhenEnabled : Prop :=
  ∀ s t : State, step s = .next t → (t = s ↔ s.enabled = false)

/-- Terminal states are absorbing: any number of steps changes nothing (decision D11; log 6). -/
def Obligations.TerminalStatesAreAbsorbing : Prop :=
  ∀ (s : State) (n : Nat), s.run ≠ .running →
    steps n s = .next s ∧ trace n s = []

/-- `ip` never goes back: over any number of steps, wherever they end, it grows by at most one a step and by exactly
one for each step that fetched, which is every step while the core is running and does not hold. -/
def Obligations.IpNeverGoesBack : Prop :=
  ∀ (n : Nat) (s t : State), steps n s = .next t →
    s.ip ≤ t.ip ∧ t.ip ≤ s.ip + n ∧ t.ip = s.ip + fetchCount n s ∧
    (t.run = .running → t.holding = false → t.ip = s.ip + n)

/-- No step changes the program space, its length, or the input environment: every index reads as before. -/
def Obligations.NoStepWritesProgramOrInput : Prop :=
  ∀ (n : Nat) (s t : State), steps n s = .next t →
    t.prog = s.prog ∧ (∀ a, t.prog.read a = s.prog.read a) ∧ t.progLen = s.progLen ∧
    t.lines = s.lines ∧ t.tail = s.tail

/-- The model itself stops at one place only: a running core whose program space lists no byte at an `ip` below
`LEN`, a state that no loaded buffer gives (log 2); it refuses nothing, and from every state with the run invariant the
step answers a next state. -/
def Obligations.ModelStopsOnlyWhereNoByteIsListed : Prop :=
  ∀ s : State,
    (step s = .fault .noProgramByte ↔ s.run = .running ∧ s.ip < s.progLen ∧ s.prog.read s.ip = none) ∧
    (∀ r, step s ≠ .refused r) ∧ (s.Inv → ∃ t, step s = .next t)

/-! ### READ -/

/-- R71: READ completes when a line or the end of input is there: the line's first byte, or 0, is pushed, `ip` is past
the READ, the cursor past the line, everything else as before; with neither it does not happen (there is no next state
but the state itself). -/
def Obligations.ReadPushesTheFirstByteOfALine : Prop :=
  (∀ (s : State) (b : Byte) (rest : Line), s.lines[s.k]? = some (b :: rest) →
    exec .read s = .next { s with ip := s.ip + 1, stack := b :: s.stack, k := s.k + 1 }) ∧
  (∀ s : State, s.lines[s.k]? = some [] →
    exec .read s = .next { s with ip := s.ip + 1, stack := 0x00#8 :: s.stack, k := s.k + 1 }) ∧
  (∀ s : State, s.lines[s.k]? = none → s.tail = .eoi →
    exec .read s = .next { s with ip := s.ip + 1, stack := 0x00#8 :: s.stack }) ∧
  (∀ s : State, s.lines[s.k]? = none → s.tail = .pending → ∀ t, exec .read s = .next t → t = s)

/-- READ never faults, whatever the stack and the input, and never stops the model. -/
def Obligations.ReadNeverFaults : Prop :=
  ∀ s : State, ∃ t, exec .read s = .next t ∧ t.run = s.run ∧ t.out = s.out

/-- A hold lasts for ever: any number of steps answers the held state (log 5), with no status, no event, the input
requested; more input lifts it. -/
def Obligations.HoldLastsUntilInputArrives : Prop :=
  ∀ s : State, s.holding = true →
    (∀ n, steps n s = .next s ∧ trace n s = []) ∧ s.statusPort = none ∧ s.inputRequestPort = true ∧
    (∀ (more : List Line) (tail : InputTail), s.k = s.lines.length → more ≠ [] ∨ tail = .eoi →
      (s.supplyInput more tail).holding = false ∧
      ∃ t, step (s.supplyInput more tail) = .next t ∧ t.ip = s.ip + 1 ∧ t.depth = s.depth + 1)

/-- Once the input has ended it stays so, whatever runs in between: after any number of steps the cursor has not
moved, no core holds, and a READ pushes 0 at once and takes no line; a row of READs pushes a row of zeros (decision D8;
log 12). -/
def Obligations.EndOfInputIsPermanent : Prop :=
  (∀ (n : Nat) (s t : State), s.lines[s.k]? = none → s.tail = .eoi → steps n s = .next t →
    t.lines[t.k]? = none ∧ t.tail = .eoi ∧ t.k = s.k ∧ t.holding = false ∧
    exec .read t = .next { t with ip := t.ip + 1, stack := 0x00#8 :: t.stack } ∧
    (t.run = .running → t.ip < t.progLen → t.prog.read t.ip = some 0x01#8 →
      step t = .next { t with ip := t.ip + 1, stack := 0x00#8 :: t.stack })) ∧
  (∀ (n : Nat) (s : State), s.run = .running → s.lines[s.k]? = none → s.tail = .eoi →
    s.ip + n ≤ s.progLen → (∀ j, j < n → s.prog.read (s.ip + j) = some 0x01#8) →
    steps n s = .next { s with ip := s.ip + n, stack := List.replicate n 0x00#8 ++ s.stack })

/-- No run depends on more of a line than the value it gives: lines with the same first bytes, an empty line and a
line beginning with 0x00 among them, give the same run. -/
def Obligations.RestOfALineIsNeverSeen : Prop :=
  ∀ (n : Nat) (s t : State) (lines : List Line), lines.map lineValue = s.lines.map lineValue →
    steps n s = .next t → steps n { s with lines := lines } = .next { t with lines := lines }

/-- When input is late, not absent, the run does not see the delay: steps that do not end in a hold are the same on a
console that delivers more afterwards (decision D9; log 13). -/
def Obligations.LateInputIsInvisible : Prop :=
  ∀ (n : Nat) (s t : State) (more : List Line) (tail : InputTail), s.tail = .pending →
    steps n s = .next t → t.holding = false →
    steps n (s.supplyInput more tail) = .next (t.supplyInput more tail)

/-- A stream is cut at 0x0A: the lines hold no terminator, each was followed by one, and what stands after the last
one is a line exactly when the input ends there; so the value a READ takes from a line is never 0x0A, and can be 0x0D
(decisions D6 and D7; log 10, log 11). -/
def Obligations.StreamIsCutAtTheTerminator : Prop :=
  (∀ (tail : InputTail) (stream : List Byte), ∃ (whole : List Line) (last : Line),
    stream = (whole.map fun l => l ++ [0x0A#8]).flatten ++ last ∧
    (∀ l ∈ whole, 0x0A#8 ∉ l) ∧ 0x0A#8 ∉ last ∧
    cutStream tail stream = whole ++ (if tail = .eoi ∧ last ≠ [] then [last] else [])) ∧
  (∀ (tail : InputTail) (stream : List Byte) (l : Line), l ∈ cutStream tail stream → lineValue l ≠ 0x0A#8) ∧
  (∀ tail : InputTail, cutStream tail [0x0D#8, 0x0A#8] = [[0x0D#8]] ∧ lineValue [0x0D#8] = 0x0D#8)

/-- READ taken one transfer at a time gives what READ on lines gives: the same value and the same rest of the input,
or both wait. -/
def Obligations.ByteLevelReadAgreesWithLineRead : Prop :=
  ∀ (tail : InputTail) (stream : List Byte),
    match readTransfers tail stream with
    | .got v rest =>
      (∃ l, cutStream tail stream = l :: cutStream tail rest ∧ v = lineValue l) ∨
      (tail = .eoi ∧ stream = [] ∧ rest = [] ∧ v = 0x00#8)
    | .hold => tail = .pending ∧ cutStream tail stream = []

/-! ### PRINT -/

/-- R75: PRINT completes when a value is on the stack: it is popped and written as one raw byte, whichever of the 256
values it is; on an empty stack it faults and writes nothing. -/
def Obligations.PrintWritesTheTopAsOneByte : Prop :=
  (∀ (s : State) (v : Byte) (rest : List Byte), s.stack = v :: rest →
    exec .print s = .next { s with ip := s.ip + 1, stack := rest, out := s.out ++ [v] }) ∧
  (∀ s : State, s.stack = [] →
    exec .print s = .next { s with ip := s.ip + 1, run := .faulted .underflowPrint })

/-- R76: PRINT on an empty stack: status 2, the stack stays empty, no output byte, `ip` after the PRINT, and no
further byte is fetched, however many steps follow. -/
def Obligations.PrintUnderflowEndsTheRun : Prop :=
  ∀ s : State, s.run = .running → s.ip < s.progLen → s.prog.read s.ip = some 0x02#8 → s.depth = 0 →
    ∀ n, ∃ t, steps (n + 1) s = .next t ∧ t.run = .faulted .underflowPrint ∧ t.statusPort = some 2 ∧
      t.causePort = some .underflowPrint ∧ (∀ upper, Cause.message upper .underflowPrint = "stack underflow in PRINT") ∧
      t.stack = [] ∧ t.out = s.out ∧ t.k = s.k ∧ t.ip = s.ip + 1

/-- `n` PRINTs write the top `n` values, top first, and the output grows at its end only. -/
def Obligations.PrintsWriteTheTopValuesInOrder : Prop :=
  ∀ (vs rest : List Byte) (s : State), s.run = .running → s.stack = vs ++ rest →
    s.ip + vs.length ≤ s.progLen → (∀ j, j < vs.length → s.prog.read (s.ip + j) = some 0x02#8) →
    steps vs.length s = .next { s with ip := s.ip + vs.length, stack := rest, out := s.out ++ vs }

/-- Output is only ever appended to: over any number of steps what was written stays, and each step adds at most one
byte, exactly the popped top of a PRINT that did not fault (that the sink always accepts is decision D10, log 14). -/
def Obligations.OutputOnlyGrows : Prop :=
  (∀ (n : Nat) (s t : State), steps n s = .next t → s.out <+: t.out) ∧
  (∀ s t : State, step s = .next t → t.out = s.out ∨
    ∃ v rest, s.stack = v :: rest ∧ s.prog.read s.ip = some 0x02#8 ∧ t.stack = rest ∧ t.out = s.out ++ [v])

/-! ### ADD -/

/-- R79: ADD completes when two values are on the stack: both are removed and their sum modulo 256 pushed, everything
beneath untouched; with fewer it faults. -/
def Obligations.AddReplacesTwoValuesByTheirSum : Prop :=
  (∀ (s : State) (a b : Byte) (rest : List Byte), s.stack = a :: b :: rest →
    exec .add s = .next { s with
      ip := s.ip + 1
      stack := BitVec.ofNat 8 ((a.toNat + b.toNat) % 256) :: rest }) ∧
  (∀ s : State, s.depth < 2 →
    exec .add s = .next { s with ip := s.ip + 1, run := .faulted .underflowAdd })

/-- R80 and the consequences the spec derives from it: the ALU's law: the low 8 bits of the 9-bit sum, commutative, associative, 0 neutral, an inverse for every
byte, below both operands exactly when the carry is lost, and the two's-complement sum on the same bits. -/
def Obligations.AluAddsModulo256 : Prop :=
  ∀ a b c : Byte,
    (sum9 a b).toNat = a.toNat + b.toNat ∧
    (aluAdd a b).toNat = (a.toNat + b.toNat) % 256 ∧
    (carryLost a b = true ↔ 256 ≤ a.toNat + b.toNat) ∧
    aluAdd a b = aluAdd b a ∧ aluAdd (aluAdd a b) c = aluAdd a (aluAdd b c) ∧ aluAdd a 0x00#8 = a ∧
    aluAdd a (BitVec.ofNat 8 ((256 - a.toNat) % 256)) = 0x00#8 ∧
    (carryLost a b = true ↔ (aluAdd a b).toNat < a.toNat ∧ (aluAdd a b).toNat < b.toNat) ∧
    (aluAdd a b).toInt = (a.toInt + b.toInt).bmod 256

/-- R81: ADD with fewer than two values: status 2, the stack exactly as it was (the one value is not popped), no
output, `ip` after the ADD, and no further byte is fetched, however many steps follow. -/
def Obligations.AddUnderflowEndsTheRun : Prop :=
  ∀ s : State, s.run = .running → s.ip < s.progLen → s.prog.read s.ip = some 0x03#8 → s.depth < 2 →
    ∀ n, ∃ t, steps (n + 1) s = .next t ∧ t.run = .faulted .underflowAdd ∧ t.statusPort = some 2 ∧
      t.causePort = some .underflowAdd ∧ (∀ upper, Cause.message upper .underflowAdd = "stack underflow in ADD") ∧
      t.stack = s.stack ∧ t.out = s.out ∧ t.k = s.k ∧ t.ip = s.ip + 1

/-- `n` ADDs leave the sum modulo 256 of the top `n + 1` values, in whatever order the sum is taken. -/
def Obligations.AddsLeaveTheSumOfAll : Prop :=
  ∀ (vs rest : List Byte) (v : Byte) (s : State), s.run = .running → s.stack = v :: (vs ++ rest) →
    s.ip + vs.length ≤ s.progLen → (∀ j, j < vs.length → s.prog.read (s.ip + j) = some 0x03#8) →
    steps vs.length s = .next { s with
      ip := s.ip + vs.length
      stack := BitVec.ofNat 8 (((v :: vs).map BitVec.toNat).sum % 256) :: rest }

/-! ### HALT, faults, status -/

/-- R63: HALT completes in every state: `run` becomes halted with status 0 and only `ip` moves beside it; nothing
after it is fetched; a HALT as the last byte and no HALT at all give the same status and output. -/
def Obligations.HaltEndsTheRunWithStatusZero : Prop :=
  (∀ s : State,
    exec .halt s = .next { s with ip := s.ip + 1, run := .halted } ∧
    ({ s with ip := s.ip + 1, run := .halted } : State).statusPort = some 0 ∧
    ∀ n, steps n { s with ip := s.ip + 1, run := .halted } = .next { s with ip := s.ip + 1, run := .halted }) ∧
  (∀ (buffer : List Byte) (lines : List Line) (tail : InputTail),
    runBuffer (buffer ++ [0xFF#8]) lines tail = runBuffer buffer lines tail)

/-- R85: an unknown byte, when it is fetched, whatever the stack: status 3, the byte recorded and shown as two hex
digits, `ip` past it, the stack and the output as they were, and execution stops; and only a fetched unknown byte
raises it. -/
def Obligations.UnknownByteEndsTheRun : Prop :=
  (∀ (s : State) (b : Byte), s.run = .running → s.ip < s.progLen → s.prog.read s.ip = some b → isOpcode b = false →
    ∀ n, ∃ t, steps (n + 1) s = .next t ∧ t.run = .faulted (.unknownOpcode b) ∧ t.statusPort = some 3 ∧
      t.causePort = some (.unknownOpcode b) ∧ t.stack = s.stack ∧ t.out = s.out ∧ t.k = s.k ∧ t.ip = s.ip + 1 ∧
      ∀ upper, (Cause.message upper (.unknownOpcode b)).toList =
        "unknown opcode 0x".toList ++ [hexDigit upper (b.toNat / 16), hexDigit upper (b.toNat % 16)]) ∧
  (∀ (s t : State) (b : Byte), s.run = .running → step s = .next t → t.run = .faulted (.unknownOpcode b) →
    s.ip < s.progLen ∧ s.prog.read s.ip = some b ∧ isOpcode b = false)

/-- R83: the fault table: which cause, raised by what, under which condition, with which status, recorded value and
message (the casing of the hex digits is an argument, log 16). -/
def Obligations.FaultTable : Prop :=
  (∀ s t : State, s.run = .running → step s = .next t →
    (t.run = .faulted .underflowPrint ↔ s.ip < s.progLen ∧ s.prog.read s.ip = some 0x02#8 ∧ s.depth = 0) ∧
    (t.run = .faulted .underflowAdd ↔ s.ip < s.progLen ∧ s.prog.read s.ip = some 0x03#8 ∧ s.depth < 2) ∧
    (∀ b, t.run = .faulted (.unknownOpcode b) ↔
      s.ip < s.progLen ∧ s.prog.read s.ip = some b ∧ decodeByte b = .unknown)) ∧
  statusOf (.faulted .underflowPrint) = some 2 ∧ statusOf (.faulted .underflowAdd) = some 2 ∧
  (∀ b, statusOf (.faulted (.unknownOpcode b)) = some 3) ∧
  (∀ upper,
    Cause.message upper .underflowPrint = "stack underflow in PRINT" ∧
    Cause.message upper .underflowAdd = "stack underflow in ADD" ∧
    ∀ b, (Cause.message upper (.unknownOpcode b)).toList =
      "unknown opcode 0x".toList ++ [hexDigit upper (b.toNat / 16), hexDigit upper (b.toNat % 16)]) ∧
  (∀ d, d < 16 →
    "0123456789ABCDEF".toList[d]? = some (hexDigit true d) ∧
    "0123456789abcdef".toList[d]? = some (hexDigit false d))

/-- R89: fault entry changes `run` and nothing else; the core is then terminal and shows the status and the cause. -/
def Obligations.FaultEntryChangesOnlyRun : Prop :=
  ∀ (s : State) (c : Cause),
    s.raiseFault c = { s with run := .faulted c } ∧ (s.raiseFault c).statusPort = statusOf (.faulted c) ∧
    (s.raiseFault c).causePort = some c ∧ (s.raiseFault c).donePort = true ∧
    ∀ n, steps n (s.raiseFault c) = .next (s.raiseFault c)

/-- Faults are precise: the step that faults leaves the stack, the output, the cursor and all the rest as they were,
and moves `ip` by one (that `ip` and the stack are unobservable afterwards is R22 and log 9). -/
def Obligations.FaultsArePrecise : Prop :=
  ∀ (s t : State) (c : Cause), s.run = .running → step s = .next t → t.run = .faulted c →
    t = { s with ip := s.ip + 1, run := .faulted c }

/-- R92: the exit-status contract: 0 exactly when halted, 2 exactly on an underflow, 3 exactly on an unknown opcode,
no status while running, never 1 from the core; 1 is the assembler's. -/
def Obligations.ExitStatusContract : Prop :=
  (∀ s : State,
    (s.statusPort = some 0 ↔ s.run = .halted) ∧
    (s.statusPort = some 2 ↔ s.run = .faulted .underflowPrint ∨ s.run = .faulted .underflowAdd) ∧
    (s.statusPort = some 3 ↔ ∃ b, s.run = .faulted (.unknownOpcode b)) ∧
    (s.statusPort = none ↔ s.run = .running) ∧ s.statusPort ≠ some 1) ∧
  (∀ source : List Line, assembleStatus (assemble source) = some 1 ↔ ∃ e, assemble source = .error e)

/-! ### Frames -/

/-- READ's frame: only `ip`, the top of the stack and the cursor may change; every index of the program space reads
as before. -/
def Obligations.ReadFrame : Prop :=
  ∀ s t : State, exec .read s = .next t →
    (∃ top, top.length ≤ 1 ∧ t.stack = top ++ s.stack) ∧ (t.k = s.k ∨ t.k = s.k + 1) ∧
    t.run = s.run ∧ t.out = s.out ∧ (∀ a, t.prog.read a = s.prog.read a) ∧ t.prog = s.prog ∧
    t.progLen = s.progLen ∧ t.lines = s.lines ∧ t.tail = s.tail

/-- PRINT's frame: only `ip`, the top of the stack, the output and, on underflow, `run` may change. -/
def Obligations.PrintFrame : Prop :=
  ∀ s t : State, exec .print s = .next t →
    t.stack = s.stack.tail ∧ (∃ v, v.length ≤ 1 ∧ t.out = s.out ++ v) ∧
    (t.run = s.run ∨ (s.stack = [] ∧ t.run = .faulted .underflowPrint)) ∧
    t.k = s.k ∧ (∀ a, t.prog.read a = s.prog.read a) ∧ t.prog = s.prog ∧
    t.progLen = s.progLen ∧ t.lines = s.lines ∧ t.tail = s.tail

/-- ADD's and HALT's frames: ADD may change only `ip`, the top two of the stack and, on underflow, `run`; HALT only
`ip` and `run`; neither touches a port. -/
def Obligations.AddAndHaltFrames : Prop :=
  (∀ s t : State, exec .add s = .next t →
    ((s.depth < 2 ∧ t.stack = s.stack ∧ t.run = .faulted .underflowAdd) ∨
      (2 ≤ s.depth ∧ t.stack.tail = s.stack.tail.tail ∧ t.run = s.run)) ∧
    t.out = s.out ∧ t.k = s.k ∧ (∀ a, t.prog.read a = s.prog.read a) ∧ t.prog = s.prog ∧
    t.progLen = s.progLen ∧ t.lines = s.lines ∧ t.tail = s.tail) ∧
  (∀ s t : State, exec .halt s = .next t →
    t.stack = s.stack ∧ t.out = s.out ∧ t.k = s.k ∧ (∀ a, t.prog.read a = s.prog.read a) ∧ t.prog = s.prog ∧
    t.progLen = s.progLen ∧ t.lines = s.lines ∧ t.tail = s.tail)

/-! ### Whole runs -/

/-- Every run ends or holds: after `LEN - ip + 1` steps a core whose program space is loaded is terminal or held by a
READ; it is terminal when the input has an end, and when there is a line for every READ still ahead. -/
def Obligations.EveryRunEndsOrHolds : Prop :=
  ∀ s : State, s.programLoaded → s.ip ≤ s.progLen → s.k ≤ s.lines.length →
    ∃ t, steps (s.progLen - s.ip + 1) s = .next t ∧ (t.run ≠ .running ∨ t.holding = true) ∧
      (s.tail = .eoi → t.run ≠ .running) ∧
      (s.prog.countBelow 0x01#8 s.progLen + s.k ≤ s.prog.countBelow 0x01#8 s.ip + s.lines.length →
        t.run ≠ .running)

/-- A run of the machine is the run of the clear interpreter that consumes the buffer from the front: the same run
state (and so the same status, or the same hold), the same output, the same number of lines. -/
def Obligations.RunAgreesWithTheInterpreter : Prop :=
  ∀ (buffer : List Byte) (lines : List Line) (tail : InputTail),
    runBuffer buffer lines tail = some (interpret tail [] lines 0 [] buffer)

/-- A run is its ordered sequence of events. (1) The events of a run are those of its steps in the order of the steps:
the sequence of `m + n` steps is that of the first `m` and then that of the next `n`, and one step's is its own.
(2) A step makes the one event of its instruction: In(line) or In(EOI) for a READ that completes, Out(b) for a PRINT
that does not fault, nothing for an ADD that does not fault or a READ that holds, Exit where the run ends, nothing after
that. (3) So over any number of steps the output grows by the Out events in order, the lines taken are those of the
In events in order, and there is an Exit event exactly when the run ends in these steps, one, the last, with its
status. -/
def Obligations.EventsAreTheRun : Prop :=
  (∀ (m n : Nat) (s t : State), steps m s = .next t → trace (m + n) s = trace m s ++ trace n t) ∧
  (∀ s : State, trace 1 s = stepEvents s) ∧
  (∀ s : State, s.run ≠ .running → stepEvents s = []) ∧
  (∀ s : State, s.run = .running → s.progLen ≤ s.ip → stepEvents s = [.exit 0]) ∧
  (∀ (s : State) (b : Byte), s.run = .running → s.ip < s.progLen → s.prog.read s.ip = some b →
    (∀ l, b = 0x01#8 → s.lines[s.k]? = some l → stepEvents s = [.inLine l]) ∧
    (b = 0x01#8 → s.lines[s.k]? = none → s.tail = .eoi → stepEvents s = [.inEoi]) ∧
    (b = 0x01#8 → s.lines[s.k]? = none → s.tail = .pending → stepEvents s = []) ∧
    (∀ v rest, b = 0x02#8 → s.stack = v :: rest → stepEvents s = [.out v]) ∧
    (b = 0x02#8 → s.depth = 0 → stepEvents s = [.exit 2]) ∧
    (b = 0x03#8 → 2 ≤ s.depth → stepEvents s = []) ∧
    (b = 0x03#8 → s.depth < 2 → stepEvents s = [.exit 2]) ∧
    (b = 0xFF#8 → stepEvents s = [.exit 0]) ∧
    (isOpcode b = false → stepEvents s = [.exit 3])) ∧
  ∀ (n : Nat) (s t : State), steps n s = .next t →
    t.out = s.out ++ (trace n s).filterMap Event.outByte ∧
    s.lines.drop s.k = (trace n s).filterMap Event.inputLine ++ s.lines.drop t.k ∧
    t.k = s.k + ((trace n s).filterMap Event.inputLine).length ∧
    (trace n s).filterMap Event.exitStatus = (if s.run = .running then t.statusPort.toList else []) ∧
    (∀ before e after, trace n s = before ++ e :: after → e.exitStatus ≠ none → after = [])

/-- Bytes at or past the final `ip` of a run that ended are dead: any such byte may be replaced by any other and the
run is the same. -/
def Obligations.DeadBytesNeverMatter : Prop :=
  ∀ (n : Nat) (s t : State) (a : Nat) (v : Byte), steps n s = .next t → t.run ≠ .running → t.ip ≤ a →
    steps n (s.withByte a v) = .next (t.withByte a v)

/-- The host's reset abandons the run and starts a fresh one of the same buffer on what is left of the input; nothing
else persists (decisions D11 and D22; log 15). -/
def Obligations.HostResetStartsAFreshRun : Prop :=
  ∀ (buffer : List Byte) (lines : List Line) (tail : InputTail) (n : Nat) (t : State),
    steps n (State.start buffer lines tail) = .next t →
    t.hostReset = State.start buffer (lines.drop t.k) tail

/-! ### The assembler -/

/-- Trimming removes the four whitespace characters from both ends, as many as there are, and nothing else. That they
are the ASCII bytes 0x20, 0x09, 0x0D and 0x0A is decision D18, log 18. -/
def Obligations.TrimRemovesWhitespaceFromBothEnds : Prop :=
  (∀ b : Byte, isSpace b = true ↔ b = 0x20#8 ∨ b = 0x09#8 ∨ b = 0x0D#8 ∨ b = 0x0A#8) ∧
  (∀ l : Line, ∃ before after : Line, l = before ++ trim l ++ after ∧
    (∀ b ∈ before, isSpace b = true) ∧ (∀ b ∈ after, isSpace b = true) ∧
    (∀ b, (trim l).head? = some b → isSpace b = false) ∧ (∀ b, (trim l).getLast? = some b → isSpace b = false))

/-- The assembler's grammar: a line is skipped exactly when it is blank or a comment, gives an instruction
exactly when it is that mnemonic between whitespace, and anything else is an error at this line with the trimmed
text. That `#` is the byte 0x23, and the mnemonics and the whitespace ASCII bytes, is decision D18, log 18. -/
def Obligations.AssemblerGrammar : Prop :=
  ∀ l : Line,
    (classifyLine l = .skip ↔ (∀ b ∈ l, isSpace b = true) ∨
      ∃ before rest : Line, (∀ b ∈ before, isSpace b = true) ∧ l = before ++ 0x23#8 :: rest) ∧
    (∀ i, classifyLine l = .instr i ↔ ∃ before after : Line, (∀ b ∈ before, isSpace b = true) ∧
      (∀ b ∈ after, isSpace b = true) ∧ l = before ++ mnemonicKey i ++ after) ∧
    (∀ text, classifyLine l = .bad text ↔
      classifyLine l ≠ .skip ∧ (∀ i, classifyLine l ≠ .instr i) ∧ text = trim l)

/-- R52: one byte per instruction line, in line order, nothing for blank and comment lines, nothing added. -/
def Obligations.AssemblerEmitsOneBytePerInstruction : Prop :=
  ∀ (source : List Line) (buffer : List Byte), assemble source = .ok buffer ↔
    (∀ l ∈ source, ∀ text, classifyLine l ≠ .bad text) ∧
    buffer = source.filterMap fun l =>
      match classifyLine l with
      | .instr i => some (encodeByte i)
      | _ => none

/-- R53, R54: the assembler fails exactly at the first bad line, with its 1-based number counting every line before
it and its trimmed text, and returns no buffer; the status is 1. -/
def Obligations.AssemblerReportsTheFirstBadLine : Prop :=
  ∀ (source : List Line) (e : AssembleError), assemble source = .error e ↔
    ∃ before l after, source = before ++ l :: after ∧ (∀ m ∈ before, ∀ text, classifyLine m ≠ .bad text) ∧
      classifyLine l = .bad (trim l) ∧ e = { lineNumber := before.length + 1, lineText := trim l } ∧
      assembleStatus (assemble source) = some 1

/-- R57: a run of an assembled buffer never faults with UnknownOpcode, in any number of steps, on any input; it can
still end with status 2, and an assembled buffer need hold no HALT. -/
def Obligations.AssembledBuffersHaveNoUnknownOpcode : Prop :=
  (∀ (source : List Line) (buffer : List Byte) (lines : List Line) (tail : InputTail) (n : Nat) (t : State),
    assemble source = .ok buffer → steps n (State.start buffer lines tail) = .next t →
    ∀ b, t.run ≠ .faulted (.unknownOpcode b)) ∧
  (∃ source buffer, assemble source = .ok buffer ∧ ∀ lines tail,
    ∃ r, runBuffer buffer lines tail = some r ∧ statusOf r.run = some 2) ∧
  (∃ source buffer, assemble source = .ok buffer ∧ 0xFF#8 ∉ buffer ∧ ∀ lines,
    ∃ r, runBuffer buffer lines .eoi = some r ∧ statusOf r.run = some 0)

end
end

