-- ==== Sys2Proof/Laws/Decode.lean ====
section
/-! SUPPORT. The decoder ROM's lines and its inverse. -/

namespace Sys2Proof

theorem decodeByte_read : decodeByte 0x01#8 = .op .read := rfl
theorem decodeByte_print : decodeByte 0x02#8 = .op .print := rfl
theorem decodeByte_add : decodeByte 0x03#8 = .op .add := rfl
theorem decodeByte_halt : decodeByte 0xFF#8 = .op .halt := rfl

/-- Everything the decoder ROM can answer. -/
theorem decodeByte_cases (b : Byte) :
    (b = 0x01#8 ∧ decodeByte b = .op .read) ∨ (b = 0x02#8 ∧ decodeByte b = .op .print) ∨
    (b = 0x03#8 ∧ decodeByte b = .op .add) ∨ (b = 0xFF#8 ∧ decodeByte b = .op .halt) ∨
    (isOpcode b = false ∧ decodeByte b = .unknown) := by
  unfold decodeByte isOpcode
  by_cases h1 : b = 0x01#8
  · simp [h1]
  · by_cases h2 : b = 0x02#8
    · simp [h2]
    · by_cases h3 : b = 0x03#8
      · simp [h3]
      · by_cases h4 : b = 0xFF#8
        · simp [h4]
        · simp [h1, h2, h3, h4]

/-- `Decode(Encode(i)) = i` (R47). -/
theorem decodeByte_encodeByte (i : Instr) : decodeByte (encodeByte i) = .op i := by
  cases i <;> rfl

/-- `Encode(Decode(b)) = b` (R47). -/
theorem encodeByte_of_decodeByte {b : Byte} {i : Instr} (h : decodeByte b = .op i) : encodeByte i = b := by
  rcases decodeByte_cases b with ⟨rfl, hd⟩ | ⟨rfl, hd⟩ | ⟨rfl, hd⟩ | ⟨rfl, hd⟩ | ⟨_, hd⟩ <;> rw [hd] at h <;>
    cases h <;> rfl

/-- A byte decodes to an operation exactly when it is an opcode. -/
theorem decodeByte_unknown_iff (b : Byte) : decodeByte b = .unknown ↔ isOpcode b = false := by
  rcases decodeByte_cases b with ⟨rfl, _⟩ | ⟨rfl, _⟩ | ⟨rfl, _⟩ | ⟨rfl, _⟩ | ⟨hb, hd⟩
  · decide
  · decide
  · decide
  · decide
  · simp [hb, hd]

end Sys2Proof
end

