-- ==== Sys2Proof/Laws/Memory.lean ====
section
/-! SUPPORT. The program space: read after write, the canonical form, a loaded buffer, counting opcodes. -/

namespace Sys2Proof.Machine

theorem Memory.unlisted_ne_some (a : Nat) (v : Byte) : Memory.unlisted a ≠ some v := by
  simp [Memory.unlisted]

theorem Memory.write_eq_insert (m : Memory) (a : Nat) (v : Byte) : m.write a v = m.insert a v := by
  simp [Memory.write, Memory.unlisted]

theorem Memory.read_insert_same (m : Memory) (a : Nat) (v : Byte) : (m.insert a v).read a = some v := by
  induction m with
  | nil => simp [Memory.insert, Memory.read]
  | cons c m ih =>
    obtain ⟨x, u⟩ := c
    unfold Memory.insert
    split
    · simp [Memory.read]
    · split
      · simp [Memory.read]
      · have : x ≠ a := by omega
        simp [Memory.read, this, ih]

theorem Memory.read_insert_other (m : Memory) (a x : Nat) (v : Byte) (h : x ≠ a) :
    (m.insert a v).read x = m.read x := by
  induction m with
  | nil => simp [Memory.insert, Memory.read, Ne.symm h]
  | cons c m ih =>
    obtain ⟨y, u⟩ := c
    unfold Memory.insert
    split
    · simp [Memory.read, Ne.symm h]
    · split
      · rename_i heq
        subst heq
        simp [Memory.read, Ne.symm h]
      · simp [Memory.read, ih]

/-- A read after a write to the same index gives the byte written. -/
theorem Memory.read_write_same (m : Memory) (a : Nat) (v : Byte) : (m.write a v).read a = some v := by
  rw [Memory.write_eq_insert, Memory.read_insert_same]

/-- A write leaves every other index alone. -/
theorem Memory.read_write_other (m : Memory) (a x : Nat) (v : Byte) (h : x ≠ a) :
    (m.write a v).read x = m.read x := by
  rw [Memory.write_eq_insert, Memory.read_insert_other m a x v h]

theorem Memory.wf_iff_rising (m : Memory) : m.wf = m.rising := by
  have : (m.all fun c => Memory.unlisted c.1 != some c.2) = true := by
    simp [Memory.unlisted]
  simp [Memory.wf, this]

theorem Memory.rising_cons (c : Host.Cell) (m : Memory) :
    Memory.rising (c :: m) = true ↔ (∀ d ∈ m.head?, c.1 < d.1) ∧ m.rising = true := by
  cases m <;> simp [Memory.rising]

theorem Memory.head_insert (m : Memory) (a : Nat) (v : Byte) (d : Host.Cell) (h : d ∈ (m.insert a v).head?) :
    d.1 = a ∨ d ∈ m.head? := by
  cases m with
  | nil =>
    have hd : (a, v) = d := by simpa [Memory.insert] using h
    exact .inl (hd ▸ rfl)
  | cons c m =>
    unfold Memory.insert at h
    split at h
    · have hd : (a, v) = d := by simpa using h
      exact .inl (hd ▸ rfl)
    · split at h
      · have hd : (a, v) = d := by simpa using h
        exact .inl (hd ▸ rfl)
      · exact .inr (by simpa using h)

theorem Memory.rising_insert (m : Memory) (a : Nat) (v : Byte) (h : m.rising = true) :
    (m.insert a v).rising = true := by
  induction m with
  | nil => rfl
  | cons c m ih =>
    obtain ⟨x, u⟩ := c
    rw [Memory.rising_cons] at h
    unfold Memory.insert
    split
    · rw [Memory.rising_cons, Memory.rising_cons]
      exact ⟨by simpa using ‹a < x›, h⟩
    · split
      · rename_i heq
        subst heq
        rw [Memory.rising_cons]
        exact h
      · rw [Memory.rising_cons]
        refine ⟨fun d hd => ?_, ih h.2⟩
        rcases Memory.head_insert m a v d hd with hd | hd
        · simp only [hd]
          omega
        · exact h.1 d hd

/-- Every write keeps the canonical form. -/
theorem Memory.wf_write (m : Memory) (a : Nat) (v : Byte) (h : m.wf = true) : (m.write a v).wf = true := by
  rw [Memory.wf_iff_rising] at *
  rw [Memory.write_eq_insert]
  exact Memory.rising_insert m a v h

/-- Every erasure keeps the canonical form. -/
theorem Memory.wf_erase (m : Memory) (a : Nat) (h : m.wf = true) : (m.erase a).wf = true := by
  have pw : ∀ m : Memory, m.rising = true ↔ m.Pairwise fun c d => c.1 < d.1 := by
    intro m
    induction m with
    | nil => simp [Memory.rising]
    | cons c m ih =>
      rw [Memory.rising_cons, ih, List.pairwise_cons]
      constructor
      · rintro ⟨h1, h2⟩
        refine ⟨fun d hd => ?_, h2⟩
        cases m with
        | nil => simp at hd
        | cons e m =>
          have hce : c.1 < e.1 := h1 e (by simp)
          rcases List.mem_cons.mp hd with hd | hd
          · exact hd ▸ hce
          · exact hce.trans ((List.pairwise_cons.mp h2).1 d hd)
      · rintro ⟨h1, h2⟩
        exact ⟨fun d hd => h1 d (List.mem_of_mem_head? hd), h2⟩
  rw [Memory.wf_iff_rising, pw] at *
  exact h.filter _

theorem Memory.read_ofBytesFrom (bytes : List Byte) (base a : Nat) :
    (Memory.ofBytesFrom base bytes).read a = if a < base then none else bytes[a - base]? := by
  induction bytes generalizing base with
  | nil => simp [Memory.ofBytesFrom, Memory.read, Memory.unlisted]
  | cons b bytes ih =>
    simp only [Memory.ofBytesFrom, Memory.read, ih]
    by_cases h : base = a
    · subst h
      simp
    · by_cases h2 : a < base
      · simp [h, h2, show a < base + 1 by omega]
      · have h3 : ¬ a < base + 1 := by omega
        have h4 : a - base = (a - (base + 1)) + 1 := by omega
        simp [h, h2, h3, h4]

/-- A loaded buffer reads back verbatim, and nothing is listed past it (R25, R26). -/
theorem Memory.read_ofBytes (bytes : List Byte) (a : Nat) : (Memory.ofBytes bytes).read a = bytes[a]? := by
  simp [Memory.ofBytes, Memory.read_ofBytesFrom]

/-- A loaded buffer is in canonical form. -/
theorem Memory.wf_ofBytes (bytes : List Byte) : (Memory.ofBytes bytes).wf = true := by
  rw [Memory.wf_iff_rising, Memory.ofBytes]
  generalize 0 = base
  induction bytes generalizing base with
  | nil => rfl
  | cons b bytes ih =>
    rw [Memory.ofBytesFrom, Memory.rising_cons]
    refine ⟨fun d hd => ?_, ih _⟩
    cases bytes with
    | nil => simp [Memory.ofBytesFrom] at hd
    | cons c bytes =>
      have : d = (base + 1, c) := by simpa [Memory.ofBytesFrom, eq_comm] using hd
      simp [this]

/-- The empty program space of reset is in canonical form. -/
theorem State.reset_prog_wf : State.reset.prog.wf = true := rfl

theorem Memory.countBelow_zero (m : Memory) (op : Byte) : m.countBelow op 0 = 0 := rfl

theorem Memory.countBelow_succ (m : Memory) (op : Byte) (n : Nat) :
    m.countBelow op (n + 1) = m.countBelow op n + if m.read n = some op then 1 else 0 := by
  simp [Memory.countBelow, List.range_succ, List.countP_append, List.countP_singleton]

theorem Memory.countBelow_le_succ (m : Memory) (op : Byte) (n : Nat) :
    m.countBelow op n ≤ m.countBelow op (n + 1) := by
  rw [Memory.countBelow_succ]
  omega

theorem Memory.countBelow_mono (m : Memory) (op : Byte) {n k : Nat} (h : n ≤ k) :
    m.countBelow op n ≤ m.countBelow op k := by
  induction h with
  | refl => exact Nat.le_refl _
  | step _ ih => exact ih.trans (Memory.countBelow_le_succ m op _)

theorem Memory.countBelow_le (m : Memory) (op : Byte) (n : Nat) : m.countBelow op n ≤ n := by
  simpa [Memory.countBelow] using List.countP_le_length (l := List.range n) (p := fun a => m.read a == some op)

end Sys2Proof.Machine
end

