-- ==== Sys2Proof/Laws/State.lean ====
section
/-! SUPPORT. One lemma per field per update of State, true by rfl. -/

namespace Sys2Proof.Machine

/-! ### `advanceIp` -/

@[simp] theorem State.advanceIp_ip (s : State) : (s.advanceIp).ip = s.ip + 1 := rfl
@[simp] theorem State.advanceIp_stack (s : State) : (s.advanceIp).stack = s.stack := rfl
@[simp] theorem State.advanceIp_run (s : State) : (s.advanceIp).run = s.run := rfl
@[simp] theorem State.advanceIp_prog (s : State) : (s.advanceIp).prog = s.prog := rfl
@[simp] theorem State.advanceIp_progLen (s : State) : (s.advanceIp).progLen = s.progLen := rfl
@[simp] theorem State.advanceIp_lines (s : State) : (s.advanceIp).lines = s.lines := rfl
@[simp] theorem State.advanceIp_tail (s : State) : (s.advanceIp).tail = s.tail := rfl
@[simp] theorem State.advanceIp_k (s : State) : (s.advanceIp).k = s.k := rfl
@[simp] theorem State.advanceIp_out (s : State) : (s.advanceIp).out = s.out := rfl

/-! ### `push` -/

@[simp] theorem State.push_ip (s : State) (v : Nat) : (s.push v).ip = s.ip := rfl
@[simp] theorem State.push_stack (s : State) (v : Nat) : (s.push v).stack = BitVec.ofNat 8 (v &&& 0xFF) :: s.stack := rfl
@[simp] theorem State.push_run (s : State) (v : Nat) : (s.push v).run = s.run := rfl
@[simp] theorem State.push_prog (s : State) (v : Nat) : (s.push v).prog = s.prog := rfl
@[simp] theorem State.push_progLen (s : State) (v : Nat) : (s.push v).progLen = s.progLen := rfl
@[simp] theorem State.push_lines (s : State) (v : Nat) : (s.push v).lines = s.lines := rfl
@[simp] theorem State.push_tail (s : State) (v : Nat) : (s.push v).tail = s.tail := rfl
@[simp] theorem State.push_k (s : State) (v : Nat) : (s.push v).k = s.k := rfl
@[simp] theorem State.push_out (s : State) (v : Nat) : (s.push v).out = s.out := rfl

/-! ### `output` -/

@[simp] theorem State.output_ip (s : State) (b : Byte) : (s.output b).ip = s.ip := rfl
@[simp] theorem State.output_stack (s : State) (b : Byte) : (s.output b).stack = s.stack := rfl
@[simp] theorem State.output_run (s : State) (b : Byte) : (s.output b).run = s.run := rfl
@[simp] theorem State.output_prog (s : State) (b : Byte) : (s.output b).prog = s.prog := rfl
@[simp] theorem State.output_progLen (s : State) (b : Byte) : (s.output b).progLen = s.progLen := rfl
@[simp] theorem State.output_lines (s : State) (b : Byte) : (s.output b).lines = s.lines := rfl
@[simp] theorem State.output_tail (s : State) (b : Byte) : (s.output b).tail = s.tail := rfl
@[simp] theorem State.output_k (s : State) (b : Byte) : (s.output b).k = s.k := rfl
@[simp] theorem State.output_out (s : State) (b : Byte) : (s.output b).out = s.out ++ [b] := rfl

/-! ### `halt` -/

@[simp] theorem State.halt_ip (s : State) : (s.halt).ip = s.ip := rfl
@[simp] theorem State.halt_stack (s : State) : (s.halt).stack = s.stack := rfl
@[simp] theorem State.halt_run (s : State) : (s.halt).run = .halted := rfl
@[simp] theorem State.halt_prog (s : State) : (s.halt).prog = s.prog := rfl
@[simp] theorem State.halt_progLen (s : State) : (s.halt).progLen = s.progLen := rfl
@[simp] theorem State.halt_lines (s : State) : (s.halt).lines = s.lines := rfl
@[simp] theorem State.halt_tail (s : State) : (s.halt).tail = s.tail := rfl
@[simp] theorem State.halt_k (s : State) : (s.halt).k = s.k := rfl
@[simp] theorem State.halt_out (s : State) : (s.halt).out = s.out := rfl

/-! ### `raiseFault` -/

@[simp] theorem State.raiseFault_ip (s : State) (c : Cause) : (s.raiseFault c).ip = s.ip := rfl
@[simp] theorem State.raiseFault_stack (s : State) (c : Cause) : (s.raiseFault c).stack = s.stack := rfl
@[simp] theorem State.raiseFault_run (s : State) (c : Cause) : (s.raiseFault c).run = .faulted c := rfl
@[simp] theorem State.raiseFault_prog (s : State) (c : Cause) : (s.raiseFault c).prog = s.prog := rfl
@[simp] theorem State.raiseFault_progLen (s : State) (c : Cause) : (s.raiseFault c).progLen = s.progLen := rfl
@[simp] theorem State.raiseFault_lines (s : State) (c : Cause) : (s.raiseFault c).lines = s.lines := rfl
@[simp] theorem State.raiseFault_tail (s : State) (c : Cause) : (s.raiseFault c).tail = s.tail := rfl
@[simp] theorem State.raiseFault_k (s : State) (c : Cause) : (s.raiseFault c).k = s.k := rfl
@[simp] theorem State.raiseFault_out (s : State) (c : Cause) : (s.raiseFault c).out = s.out := rfl

/-! ### `supplyInput` -/

@[simp] theorem State.supplyInput_ip (s : State) (more : List Line) (w : InputTail) : (s.supplyInput more w).ip = s.ip := rfl
@[simp] theorem State.supplyInput_stack (s : State) (more : List Line) (w : InputTail) : (s.supplyInput more w).stack = s.stack := rfl
@[simp] theorem State.supplyInput_run (s : State) (more : List Line) (w : InputTail) : (s.supplyInput more w).run = s.run := rfl
@[simp] theorem State.supplyInput_prog (s : State) (more : List Line) (w : InputTail) : (s.supplyInput more w).prog = s.prog := rfl
@[simp] theorem State.supplyInput_progLen (s : State) (more : List Line) (w : InputTail) : (s.supplyInput more w).progLen = s.progLen := rfl
@[simp] theorem State.supplyInput_lines (s : State) (more : List Line) (w : InputTail) : (s.supplyInput more w).lines = s.lines ++ more := rfl
@[simp] theorem State.supplyInput_tail (s : State) (more : List Line) (w : InputTail) : (s.supplyInput more w).tail = w := rfl
@[simp] theorem State.supplyInput_k (s : State) (more : List Line) (w : InputTail) : (s.supplyInput more w).k = s.k := rfl
@[simp] theorem State.supplyInput_out (s : State) (more : List Line) (w : InputTail) : (s.supplyInput more w).out = s.out := rfl

/-! ### `withByte` -/

@[simp] theorem State.withByte_ip (s : State) (a : Nat) (v : Byte) : (s.withByte a v).ip = s.ip := rfl
@[simp] theorem State.withByte_stack (s : State) (a : Nat) (v : Byte) : (s.withByte a v).stack = s.stack := rfl
@[simp] theorem State.withByte_run (s : State) (a : Nat) (v : Byte) : (s.withByte a v).run = s.run := rfl
@[simp] theorem State.withByte_prog (s : State) (a : Nat) (v : Byte) : (s.withByte a v).prog = s.prog.write a v := rfl
@[simp] theorem State.withByte_progLen (s : State) (a : Nat) (v : Byte) : (s.withByte a v).progLen = s.progLen := rfl
@[simp] theorem State.withByte_lines (s : State) (a : Nat) (v : Byte) : (s.withByte a v).lines = s.lines := rfl
@[simp] theorem State.withByte_tail (s : State) (a : Nat) (v : Byte) : (s.withByte a v).tail = s.tail := rfl
@[simp] theorem State.withByte_k (s : State) (a : Nat) (v : Byte) : (s.withByte a v).k = s.k := rfl
@[simp] theorem State.withByte_out (s : State) (a : Nat) (v : Byte) : (s.withByte a v).out = s.out := rfl

end Sys2Proof.Machine
end

