-- ==== Sys2Proof/Laws/Ops.lean ====
section
/-! SUPPORT. One lemma per shared operation: everything it can answer. -/

namespace Sys2Proof.Machine

theorem byte_of_masked (b : Byte) : BitVec.ofNat 8 (b.toNat &&& 0xFF) = b := by
  have h : b.toNat &&& 0xFF = b.toNat % 2 ^ 8 := Nat.and_two_pow_sub_one_eq_mod b.toNat 8
  rw [h]
  apply BitVec.eq_of_toNat_eq
  simpa using b.isLt

/-- Pushing a byte puts that byte on top: the mask changes nothing (R71). -/
theorem State.push_byte (s : State) (b : Byte) : s.push b.toNat = { s with stack := b :: s.stack } := by
  simp only [State.push, byte_of_masked]

theorem State.pop_nil (s : State) (h : s.stack = []) : s.pop = none := by
  simp [State.pop, h]

theorem State.pop_cons (s : State) (v : Byte) (rest : List Byte) (h : s.stack = v :: rest) :
    s.pop = some (v, { s with stack := rest }) := by
  simp [State.pop, h]

theorem State.popOne_nil (s : State) (h : s.stack = []) : s.popOne = none := by
  simp [State.popOne, State.depth, h]

theorem State.popOne_cons (s : State) (v : Byte) (rest : List Byte) (h : s.stack = v :: rest) :
    s.popOne = some (v, { s with stack := rest }) := by
  simp [State.popOne, State.depth, h, State.pop]

theorem State.popTwo_short (s : State) (h : s.depth < 2) : s.popTwo = none := by
  simp [State.popTwo, h]

theorem State.popTwo_cons (s : State) (a b : Byte) (rest : List Byte) (h : s.stack = a :: b :: rest) :
    s.popTwo = some (a, b, { s with stack := rest }) := by
  simp [State.popTwo, State.depth, h, State.pop]

/-- A stack with fewer than two values, or with a top and a next. -/
theorem State.stack_cases (s : State) : s.depth < 2 ∨ ∃ a b rest, s.stack = a :: b :: rest := by
  unfold State.depth
  match s.stack with
  | [] => simp
  | [_] => simp
  | a :: b :: rest => exact .inr ⟨a, b, rest, rfl⟩

theorem State.inputLine_line (s : State) (l : Line) (h : s.lines[s.k]? = some l) :
    s.inputLine = .line l { s with k := s.k + 1 } := by
  simp [State.inputLine, h]

theorem State.inputLine_eoi (s : State) (h : s.lines[s.k]? = none) (ht : s.tail = .eoi) :
    s.inputLine = .eoi := by
  simp [State.inputLine, h, ht]

theorem State.inputLine_hold (s : State) (h : s.lines[s.k]? = none) (ht : s.tail = .pending) :
    s.inputLine = .hold := by
  simp [State.inputLine, h, ht]

/-- The three answers of the input port (R34). -/
theorem State.input_cases (s : State) :
    (∃ l, s.lines[s.k]? = some l) ∨ (s.lines[s.k]? = none ∧ s.tail = .eoi) ∨
    (s.lines[s.k]? = none ∧ s.tail = .pending) := by
  cases h : s.lines[s.k]? with
  | some l => exact .inl ⟨l, rfl⟩
  | none => cases ht : s.tail <;> simp

theorem State.inputLine_hold_iff (s : State) :
    s.inputLine = .hold ↔ s.lines[s.k]? = none ∧ s.tail = .pending := by
  rcases s.input_cases with ⟨l, h⟩ | ⟨h, ht⟩ | ⟨h, ht⟩
  · simp [s.inputLine_line l h, h]
  · simp [s.inputLine_eoi h ht, ht]
  · simp [s.inputLine_hold h ht, h, ht]

theorem aluAdd_eq (a b : Byte) : aluAdd a b = a + b := by
  apply BitVec.eq_of_toNat_eq
  simp only [aluAdd, sum9, BitVec.toNat_setWidth, BitVec.toNat_add]
  omega

theorem State.terminal_false_iff (s : State) : s.terminal = false ↔ s.run = .running := by
  unfold State.terminal
  cases s.run <;> simp

theorem State.terminal_true_iff (s : State) : s.terminal = true ↔ s.run ≠ .running := by
  unfold State.terminal
  cases s.run <;> simp

end Sys2Proof.Machine
end

