-- ==== Sys2Proof/Laws/PerInstr.lean ====
section
/-! SUPPORT. The family of statements made per instruction: the round trip of its encoding. -/

namespace Sys2Proof.Laws

/-- An instruction is well formed, its encoding is one byte that is an opcode, and decoding it gives it back with
whatever followed (R40, R44, R47). -/
def RoundTrip.Statement (i : Instr) : Prop :=
  i.wellFormed = true ∧ (encode i).length = 1 ∧ isOpcode (encodeByte i) = true ∧
    ∀ rest, decode (encode i ++ rest) = .ok (i, rest)

theorem RoundTrip.read : RoundTrip.Statement .read := ⟨rfl, rfl, rfl, fun _ => rfl⟩
theorem RoundTrip.print : RoundTrip.Statement .print := ⟨rfl, rfl, rfl, fun _ => rfl⟩
theorem RoundTrip.add : RoundTrip.Statement .add := ⟨rfl, rfl, rfl, fun _ => rfl⟩
theorem RoundTrip.halt : RoundTrip.Statement .halt := ⟨rfl, rfl, rfl, fun _ => rfl⟩

end Sys2Proof.Laws
end

