-- ==== Sys2Proof/Laws/Step.lean ====
section
/-! SUPPORT. What each instruction answers, and everything a step can do, said once. -/

namespace Sys2Proof.Machine

/-! ### READ -/

theorem execRead_line (s : State) (l : Line) (h : s.lines[s.k]? = some l) :
    exec .read s = .next { s with ip := s.ip + 1, stack := lineValue l :: s.stack, k := s.k + 1 } := by
  have hi : s.advanceIp.inputLine = .line l { s.advanceIp with k := s.k + 1 } := s.advanceIp.inputLine_line l h
  simp only [exec, execRead, State.readOperand, hi, State.push_byte]
  rfl

theorem execRead_eoi (s : State) (h : s.lines[s.k]? = none) (ht : s.tail = .eoi) :
    exec .read s = .next { s with ip := s.ip + 1, stack := 0x00#8 :: s.stack } := by
  have hi : s.advanceIp.inputLine = .eoi := s.advanceIp.inputLine_eoi h ht
  simp only [exec, execRead, State.readOperand, hi, State.push_byte]
  rfl

theorem execRead_hold (s : State) (h : s.lines[s.k]? = none) (ht : s.tail = .pending) :
    exec .read s = .next s := by
  have hi : s.advanceIp.inputLine = .hold := s.advanceIp.inputLine_hold h ht
  simp only [exec, execRead, State.readOperand, hi]

/-! ### PRINT -/

theorem execPrint_nil (s : State) (h : s.stack = []) :
    exec .print s = .next { s with ip := s.ip + 1, run := .faulted .underflowPrint } := by
  simp only [exec, execPrint, s.advanceIp.popOne_nil h]
  rfl

theorem execPrint_cons (s : State) (v : Byte) (rest : List Byte) (h : s.stack = v :: rest) :
    exec .print s = .next { s with ip := s.ip + 1, stack := rest, out := s.out ++ [v] } := by
  simp only [exec, execPrint, s.advanceIp.popOne_cons v rest h]
  rfl

/-! ### ADD -/

theorem execAdd_short (s : State) (h : s.depth < 2) :
    exec .add s = .next { s with ip := s.ip + 1, run := .faulted .underflowAdd } := by
  simp only [exec, execAdd, s.advanceIp.popTwo_short h]
  rfl

theorem execAdd_cons (s : State) (a b : Byte) (rest : List Byte) (h : s.stack = a :: b :: rest) :
    exec .add s = .next { s with ip := s.ip + 1, stack := (a + b) :: rest } := by
  simp only [exec, execAdd, s.advanceIp.popTwo_cons a b rest h, State.push_byte, aluAdd_eq]
  rfl

/-! ### HALT -/

theorem execHalt_next (s : State) : exec .halt s = .next { s with ip := s.ip + 1, run := .halted } := rfl

/-- No instruction stops the model. -/
theorem exec_next (i : Instr) (s : State) : ∃ t, exec i s = .next t := by
  cases i with
  | read =>
    rcases s.input_cases with ⟨l, h⟩ | ⟨h, ht⟩ | ⟨h, ht⟩
    · exact ⟨_, execRead_line s l h⟩
    · exact ⟨_, execRead_eoi s h ht⟩
    · exact ⟨_, execRead_hold s h ht⟩
  | print =>
    cases h : s.stack with
    | nil => exact ⟨_, execPrint_nil s h⟩
    | cons v rest => exact ⟨_, execPrint_cons s v rest h⟩
  | add =>
    rcases s.stack_cases with h | ⟨a, b, rest, h⟩
    · exact ⟨_, execAdd_short s h⟩
    · exact ⟨_, execAdd_cons s a b rest h⟩
  | halt => exact ⟨_, execHalt_next s⟩

/-! ### The step -/

theorem step_terminal (s : State) (h : s.terminal = true) : step s = .next s := by
  simp [step, fsmStep, h]

theorem step_end (s : State) (hr : s.run = .running) (h : s.progLen ≤ s.ip) :
    step s = .next { s with run := .halted } := by
  simp [step, fsmStep, s.terminal_false_iff.mpr hr, runningStep, h]
  rfl

theorem step_op (s : State) (b : Byte) (i : Instr) (hr : s.run = .running) (h : s.ip < s.progLen)
    (hb : s.prog.read s.ip = some b) (hd : decodeByte b = .op i) : step s = exec i s := by
  simp [step, fsmStep, s.terminal_false_iff.mpr hr, runningStep, Nat.not_le.mpr h, State.fetch, hb, hd]

theorem step_unknown (s : State) (b : Byte) (hr : s.run = .running) (h : s.ip < s.progLen)
    (hb : s.prog.read s.ip = some b) (hd : isOpcode b = false) :
    step s = .next { s with ip := s.ip + 1, run := .faulted (.unknownOpcode b) } := by
  simp [step, fsmStep, s.terminal_false_iff.mpr hr, runningStep, Nat.not_le.mpr h, State.fetch, hb,
    (decodeByte_unknown_iff b).mpr hd]
  rfl

theorem step_unlisted (s : State) (hr : s.run = .running) (h : s.ip < s.progLen)
    (hb : s.prog.read s.ip = none) : step s = .fault .noProgramByte := by
  simp [step, fsmStep, s.terminal_false_iff.mpr hr, runningStep, Nat.not_le.mpr h, State.fetch, hb]

/-- Everything a fetched instruction byte can do to a running core, one constructor per case with its guards. -/
inductive FetchCase (s : State) : Byte → State → Prop where
  | readLine (l : Line) (h : s.lines[s.k]? = some l) :
      FetchCase s 0x01#8 { s with ip := s.ip + 1, stack := lineValue l :: s.stack, k := s.k + 1 }
  | readEoi (h : s.lines[s.k]? = none) (ht : s.tail = .eoi) :
      FetchCase s 0x01#8 { s with ip := s.ip + 1, stack := 0x00#8 :: s.stack }
  | readHold (h : s.lines[s.k]? = none) (ht : s.tail = .pending) : FetchCase s 0x01#8 s
  | print (v : Byte) (rest : List Byte) (h : s.stack = v :: rest) :
      FetchCase s 0x02#8 { s with ip := s.ip + 1, stack := rest, out := s.out ++ [v] }
  | printFault (h : s.stack = []) :
      FetchCase s 0x02#8 { s with ip := s.ip + 1, run := .faulted .underflowPrint }
  | add (a b : Byte) (rest : List Byte) (h : s.stack = a :: b :: rest) :
      FetchCase s 0x03#8 { s with ip := s.ip + 1, stack := (a + b) :: rest }
  | addFault (h : s.depth < 2) :
      FetchCase s 0x03#8 { s with ip := s.ip + 1, run := .faulted .underflowAdd }
  | halt : FetchCase s 0xFF#8 { s with ip := s.ip + 1, run := .halted }
  | unknown (b : Byte) (h : isOpcode b = false) :
      FetchCase s b { s with ip := s.ip + 1, run := .faulted (.unknownOpcode b) }

/-- Everything a step that answers a next state can do. -/
inductive StepCase (s : State) : State → Prop where
  | terminal (h : s.terminal = true) : StepCase s s
  | endOfBuffer (hr : s.run = .running) (h : s.progLen ≤ s.ip) : StepCase s { s with run := .halted }
  | fetched (b : Byte) (t : State) (hr : s.run = .running) (h : s.ip < s.progLen)
      (hb : s.prog.read s.ip = some b) (hc : FetchCase s b t) : StepCase s t

/-- A running core with a byte to fetch answers one of the cases. -/
theorem fetchCase_exists (s : State) (b : Byte) (hr : s.run = .running) (h : s.ip < s.progLen)
    (hb : s.prog.read s.ip = some b) : ∃ t, step s = .next t ∧ FetchCase s b t := by
  rcases decodeByte_cases b with ⟨rfl, hd⟩ | ⟨rfl, hd⟩ | ⟨rfl, hd⟩ | ⟨rfl, hd⟩ | ⟨ho, _⟩
  · rw [step_op s _ _ hr h hb hd]
    rcases s.input_cases with ⟨l, hl⟩ | ⟨hl, ht⟩ | ⟨hl, ht⟩
    · exact ⟨_, execRead_line s l hl, .readLine l hl⟩
    · exact ⟨_, execRead_eoi s hl ht, .readEoi hl ht⟩
    · exact ⟨_, execRead_hold s hl ht, .readHold hl ht⟩
  · rw [step_op s _ _ hr h hb hd]
    cases hs : s.stack with
    | nil => exact ⟨_, execPrint_nil s hs, .printFault hs⟩
    | cons v rest => exact ⟨_, execPrint_cons s v rest hs, .print v rest hs⟩
  · rw [step_op s _ _ hr h hb hd]
    rcases s.stack_cases with hs | ⟨a, c, rest, hs⟩
    · exact ⟨_, execAdd_short s hs, .addFault hs⟩
    · exact ⟨_, execAdd_cons s a c rest hs, .add a c rest hs⟩
  · rw [step_op s _ _ hr h hb hd]
    exact ⟨_, execHalt_next s, .halt⟩
  · exact ⟨_, step_unknown s b hr h hb ho, .unknown b ho⟩

/-- The inversion of a step: what a next state can be. -/
theorem stepCase_of_step {s t : State} (h : step s = .next t) : StepCase s t := by
  cases hterm : s.terminal with
  | true =>
    rw [step_terminal s hterm] at h
    cases h
    exact .terminal hterm
  | false =>
    have hr := s.terminal_false_iff.mp hterm
    by_cases hl : s.progLen ≤ s.ip
    · rw [step_end s hr hl] at h
      cases h
      exact .endOfBuffer hr hl
    · have hlt := Nat.not_le.mp hl
      cases hb : s.prog.read s.ip with
      | none =>
        rw [step_unlisted s hr hlt hb] at h
        cases h
      | some b =>
        obtain ⟨u, hu, hc⟩ := fetchCase_exists s b hr hlt hb
        rw [hu] at h
        cases h
        exact .fetched b t hr hlt hb hc

/-- No step changes the program space, its length or the input environment (R20, R31). -/
theorem step_keeps_parameters {s t : State} (h : step s = .next t) :
    t.prog = s.prog ∧ t.progLen = s.progLen ∧ t.lines = s.lines ∧ t.tail = s.tail := by
  cases stepCase_of_step h with
  | terminal _ => simp
  | endOfBuffer _ _ => simp
  | fetched b t _ _ _ hc => cases hc <;> simp

/-- `ip` stays or grows by one (R9 (c)). -/
theorem step_ip {s t : State} (h : step s = .next t) : t.ip = s.ip ∨ t.ip = s.ip + 1 := by
  cases stepCase_of_step h with
  | terminal _ => exact .inl rfl
  | endOfBuffer _ _ => exact .inl rfl
  | fetched b t _ _ _ hc => cases hc <;> simp

/-! ### Many steps -/

theorem steps_succ_of_step {s t : State} (h : step s = .next t) (n : Nat) : steps (n + 1) s = steps n t := by
  simp [steps, h]

theorem steps_terminal (s : State) (h : s.terminal = true) (n : Nat) : steps n s = .next s := by
  induction n with
  | zero => rfl
  | succ n ih => rw [steps_succ_of_step (step_terminal s h), ih]

/-- A run of the host's core is `steps`. -/
theorem core_run_eq_steps (n : Nat) (s : State) : Host.Core.run Sys2Proof.core n s = steps n s := by
  induction n generalizing s with
  | zero => rfl
  | succ n ih =>
    cases h : step s with
    | next t =>
      have h' : Sys2Proof.core.step s = .next t := h
      simpa only [Host.Core.run, steps, h, h'] using ih t
    | fault r =>
      have h' : Sys2Proof.core.step s = .fault r := h
      simp only [Host.Core.run, steps, h, h']
      rfl
    | refused r =>
      have h' : Sys2Proof.core.step s = .refused r := h
      simp only [Host.Core.run, steps, h, h']
      rfl

/-- The induction over a run, once: what holds at the first state and is kept by every step holds at the last. -/
theorem steps_induction {P : State → Prop} (keep : ∀ s t, step s = .next t → P s → P t) (n : Nat) :
    ∀ s t, steps n s = .next t → P s → P t := by
  induction n with
  | zero =>
    intro s t h hp
    cases h
    exact hp
  | succ n ih =>
    intro s t h hp
    cases hs : step s with
    | next u =>
      rw [steps_succ_of_step hs] at h
      exact ih u t h (keep s u hs hp)
    | fault r => simp [steps, hs] at h
    | refused r => simp [steps, hs] at h

end Sys2Proof.Machine
end

