-- ==== Sys2Proof/Laws/Run.lean ====
section
/-! SUPPORT. The interpreter's equations, one per case, and facts about many steps. -/

namespace Sys2Proof.Machine

section
variable (tail : InputTail) (stack : List Byte) (ls : List Line) (taken : Nat) (out rest : List Byte)

theorem interpret_nil :
    interpret tail stack ls taken out [] = { run := .halted, out := out, k := taken } := rfl

theorem interpret_line (l : Line) :
    interpret tail stack (l :: ls) taken out (0x01#8 :: rest) =
      interpret tail (lineValue l :: stack) ls (taken + 1) out rest := rfl

theorem interpret_eoi :
    interpret .eoi stack [] taken out (0x01#8 :: rest) = interpret .eoi (0x00#8 :: stack) [] taken out rest := rfl

theorem interpret_hold :
    interpret .pending stack [] taken out (0x01#8 :: rest) = { run := .running, out := out, k := taken } := rfl

theorem interpret_print (v : Byte) :
    interpret tail (v :: stack) ls taken out (0x02#8 :: rest) =
      interpret tail stack ls taken (out ++ [v]) rest := rfl

theorem interpret_print_nil :
    interpret tail [] ls taken out (0x02#8 :: rest) =
      { run := .faulted .underflowPrint, out := out, k := taken } := rfl

theorem interpret_add (a b : Byte) :
    interpret tail (a :: b :: stack) ls taken out (0x03#8 :: rest) =
      interpret tail ((a + b) :: stack) ls taken out rest := rfl

theorem interpret_add_short (h : stack.length < 2) :
    interpret tail stack ls taken out (0x03#8 :: rest) =
      { run := .faulted .underflowAdd, out := out, k := taken } := by
  match stack, h with
  | [], _ => rfl
  | [_], _ => rfl

theorem interpret_halt :
    interpret tail stack ls taken out (0xFF#8 :: rest) = { run := .halted, out := out, k := taken } := rfl

theorem interpret_unknown (b : Byte) (h : isOpcode b = false) :
    interpret tail stack ls taken out (b :: rest) =
      { run := .faulted (.unknownOpcode b), out := out, k := taken } := by
  have hd := (decodeByte_unknown_iff b).mpr h
  show (match decodeByte b with | .unknown => _ | .op .halt => _ | .op .read => _ | .op .print => _ | .op .add => _) = _
  rw [hd]

end

theorem steps_append {m : Nat} {s t : State} (h : steps m s = .next t) (n : Nat) : steps (m + n) s = steps n t := by
  induction m generalizing s with
  | zero =>
    cases h
    rw [Nat.zero_add]
  | succ m ih =>
    cases hs : step s with
    | next u =>
      rw [steps_succ_of_step hs] at h
      rw [show m + 1 + n = (m + n) + 1 by omega, steps_succ_of_step hs, ih h]
    | fault r => simp [steps, hs] at h
    | refused r => simp [steps, hs] at h

/-- No number of steps changes the program space, its length or the input environment. -/
theorem steps_keep_parameters {n : Nat} {s t : State} (h : steps n s = .next t) :
    t.prog = s.prog ∧ t.progLen = s.progLen ∧ t.lines = s.lines ∧ t.tail = s.tail :=
  steps_induction
    (P := fun u => u.prog = s.prog ∧ u.progLen = s.progLen ∧ u.lines = s.lines ∧ u.tail = s.tail)
    (fun u v hs hp => by
      obtain ⟨a, b, c, d⟩ := step_keeps_parameters hs
      exact ⟨a.trans hp.1, b.trans hp.2.1, c.trans hp.2.2.1, d.trans hp.2.2.2⟩)
    n s t h ⟨rfl, rfl, rfl, rfl⟩

/-- When a core holds, and what it then does. -/
theorem State.holding_iff (s : State) :
    s.holding = true ↔ s.run = .running ∧ s.ip < s.progLen ∧ s.prog.read s.ip = some 0x01#8 ∧
      s.lines[s.k]? = none ∧ s.tail = .pending := by
  have hf : (s.fetch == some 0x01#8) = true ↔ s.prog.read s.ip = some 0x01#8 := by
    rw [beq_iff_eq]
    rfl
  rw [State.holding, Bool.and_eq_true, Bool.and_eq_true, Bool.and_eq_true, Bool.not_eq_true', hf,
    State.terminal_false_iff, decide_eq_true_iff, beq_iff_eq, State.inputLine_hold_iff]
  tauto

/-- When the next step fetches: a running core below the end of the buffer that does not hold. -/
theorem State.fetches_iff (s : State) :
    s.fetches = true ↔ s.run = .running ∧ s.ip < s.progLen ∧ s.holding = false := by
  rw [State.fetches, State.enabled, Bool.and_eq_true, Bool.and_eq_true, Bool.not_eq_true', Bool.not_eq_true',
    State.terminal_false_iff, decide_eq_true_iff]
  tauto

theorem fetchCount_succ_of_step {s t : State} (h : step s = .next t) (n : Nat) :
    fetchCount (n + 1) s = (if s.fetches then 1 else 0) + fetchCount n t := by
  simp [fetchCount, h]

theorem step_holding {s : State} (h : s.holding = true) : step s = .next s := by
  obtain ⟨hr, hl, hb, h4, h5⟩ := s.holding_iff.mp h
  rw [step_op s _ .read hr hl hb rfl, execRead_hold s h4 h5]

theorem steps_holding {s : State} (h : s.holding = true) (n : Nat) : steps n s = .next s := by
  induction n with
  | zero => rfl
  | succ n ih => rw [steps_succ_of_step (step_holding h), ih]

end Sys2Proof.Machine
end

