-- ==== Sys2Proof/Tests/Slice0.lean ====
section
/-! SUPPORT. Tests: expected results are the spec's own vectors (spec/95_test_vectors.md, named in each comment), and a
witness for the hypotheses of each statement that has some. -/

namespace Sys2Proof.Tests

open Sys2Proof.Machine

/-- A running core in the middle of a run. -/
def midRun (buffer : List Byte) (lines : List Line) (tail : InputTail) (ip : Nat) (stack : List Byte) (k : Nat) : State :=
  { State.start buffer lines tail with ip := ip, stack := stack, k := k }

/-- The next state of a step, if there is one. -/
def stepNext (s : State) : Option State :=
  match step s with
  | .next t => some t
  | .fault _ => none
  | .refused _ => none

/-! ### WellFormed smoke: each check refuses an ill-formed term (an instruction has no field to be ill-formed) -/

theorem test_wellFormed_accepts_the_four :
    [Instr.read, .print, .add, .halt].all Instr.wellFormed = true := by decide
/-- 95, 2.1: 0x42 and 0x81 are Unknown. -/
theorem test_isOpcode_refuses : isOpcode 0x42#8 = false ∧ isOpcode 0x81#8 = false ∧ isOpcode 0x00#8 = false := by decide
theorem test_onlyOpcodes_refuses : onlyOpcodes [0x01#8, 0x42#8] = false ∧ onlyOpcodes [0x01#8, 0xFF#8] = true := by decide
theorem test_memory_wf_refuses :
    Memory.wf [(1, 0x01#8), (0, 0x02#8)] = false ∧ Memory.wf [(1, 0x01#8), (1, 0x02#8)] = false := by decide

/-! ### Decode: words written out from the binary column of R42's table -/

theorem test_decode_read : decode [0b00000001#8] = .ok (.read, []) := rfl
theorem test_decode_print : decode [0b00000010#8] = .ok (.print, []) := rfl
theorem test_decode_add : decode [0b00000011#8, 0xFF#8] = .ok (.add, [0xFF#8]) := rfl
theorem test_decode_halt : decode [0b11111111#8] = .ok (.halt, []) := rfl
theorem test_decode_rejects : decode [0x42#8] = .error (.unknownOpcode 0x42#8) ∧ decode [] = .error .noByte :=
  ⟨rfl, rfl⟩
theorem test_encode : [Instr.read, .print, .add, .halt].map encode = [[0x01#8], [0x02#8], [0x03#8], [0xFF#8]] := by decide
theorem test_table_words :
    [0x01, 0x02, 0x03, 0xFF, 0x11, 0xFE].map (decodeTableWord 8) =
      [some .read, some .print, some .add, some .halt, none, none] := by decide
/-- The words run as the first instruction after reset. -/
theorem test_fetch_words_run :
    (stepNext (State.reset.withFetchWord 8 0x01)).map State.stack = some [0x00#8] ∧
    (stepNext (State.reset.withFetchWord 8 0x02)).map State.run = some (.faulted .underflowPrint) ∧
    (stepNext (State.reset.withFetchWord 8 0x03)).map State.run = some (.faulted .underflowAdd) ∧
    (stepNext (State.reset.withFetchWord 8 0xFF)).map State.run = some .halted := by decide

/-! ### One step of each instruction -/

/-- S4, step 1, and V-READ-2: the first byte of the line. -/
theorem test_read_first_byte :
    (stepNext (midRun [0x01#8] [[0x36#8, 0x35#8]] .eoi 0 [0x07#8] 0)).map (fun t => (t.stack, t.k, t.ip)) =
      some ([0x36#8, 0x07#8], 1, 1) := by decide
/-- S10, and V-READ-6: end-of-input pushes 0, input that never arrives holds. -/
theorem test_read_without_a_line :
    (stepNext (midRun [0x01#8] [] .eoi 0 [] 0)).map (fun t => (t.stack, t.k, t.ip)) = some ([0x00#8], 0, 1) ∧
    stepNext (midRun [0x01#8] [] .pending 0 [] 0) = some (midRun [0x01#8] [] .pending 0 [] 0) := by decide
/-- V-PRINT-3: the last pushed is printed first. -/
theorem test_print_top :
    (stepNext (midRun [0x01#8, 0x01#8, 0x02#8, 0x02#8] [] .eoi 2 [0x42#8, 0x41#8] 2)).map (fun t => (t.stack, t.out)) =
      some ([0x41#8], [0x42#8]) := by decide
/-- S6: underflow, no output byte. -/
theorem test_print_underflow :
    (stepNext (midRun [0x02#8] [] .eoi 0 [] 0)).map (fun t => (t.statusPort, t.ip, t.out)) = some (some 2, 1, []) := by
  decide
/-- V-ADD-1: 0xC8 + 0x64 wraps to 0x2C; V-ADD-8: only the top two. -/
theorem test_add_wraps :
    (stepNext (midRun [0x03#8] [] .eoi 0 [0x64#8, 0xC8#8, 0x01#8] 0)).map State.stack = some [0x2C#8, 0x01#8] := by decide
/-- V-ADD-7: the one value is not popped. -/
theorem test_add_underflow :
    (stepNext (midRun [0x01#8, 0x03#8] [[0x41#8]] .eoi 1 [0x41#8] 1)).map (fun t => (t.run, t.ip, t.stack)) =
      some (.faulted .underflowAdd, 2, [0x41#8]) := by decide
/-- V-CTL-2 and V-CTL-1: HALT, and the implicit halt. -/
theorem test_halts :
    (stepNext (midRun [0xFF#8] [] .pending 0 [] 0)).map (fun t => (t.run, t.ip)) = some (.halted, 1) ∧
    (stepNext (midRun [] [] .pending 0 [] 0)).map (fun t => (t.run, t.ip)) = some (.halted, 0) := by decide
/-- S8: the byte 0x42. -/
theorem test_unknown_opcode :
    (stepNext (midRun [0x42#8] [] .eoi 0 [] 0)).map (fun t => (t.run, t.statusPort, t.ip)) =
      some (.faulted (.unknownOpcode 0x42#8), some 3, 1) := by decide
/-- S8's message, in either casing. -/
theorem test_message : Cause.message true (.unknownOpcode 0x4F#8) = "unknown opcode 0x4F" ∧
    Cause.message false (.unknownOpcode 0x4F#8) = "unknown opcode 0x4f" := by decide
/-- 95, 2.4: the ALU's table. -/
theorem test_alu :
    aluAdd 0xFF#8 0xFF#8 = 0xFE#8 ∧ carryLost 0xFF#8 0xFF#8 = true ∧ aluAdd 0x7F#8 0x01#8 = 0x80#8 ∧
      carryLost 0x7F#8 0x01#8 = false := by decide

/-! ### The input stream and the assembler -/

/-- 95, 2.2, the table of streams. -/
theorem test_cutStream :
    cutStream .eoi [0x41#8, 0x0A#8, 0x0A#8, 0x42#8] = [[0x41#8], [], [0x42#8]] ∧
    cutStream .pending [0x41#8, 0x0A#8, 0x42#8] = [[0x41#8]] ∧
    cutStream .eoi [0x41#8, 0x0D#8, 0x0A#8] = [[0x41#8, 0x0D#8]] ∧ cutStream .eoi [] = [] ∧
    cutStream .eoi [0x0A#8] = [[]] ∧
    cutStream .pending [0x0D#8, 0x0A#8, 0x41#8, 0x0A#8] = [[0x0D#8], [0x41#8]] := by decide

/-- A source line from its ASCII text. -/
def text (s : String) : Line := s.toList.map fun c => BitVec.ofNat 8 c.toNat

/-- V-ASM-15, V-ASM-4, V-ASM-7. -/
theorem test_assemble_accepts :
    assemble [text "READ", text "READ", text "ADD", text "PRINT", text "HALT"] =
      .ok [0x01#8, 0x01#8, 0x03#8, 0x02#8, 0xFF#8] ∧
    assemble [text "\tPRINT\r\n"] = .ok [0x02#8] ∧ assemble [text "   # indented"] = .ok [] := ⟨rfl, rfl, rfl⟩
/-- V-ASM-13, V-ASM-10, V-ASM-14. -/
theorem test_assemble_rejects :
    assemble [text "# c", [], text "FOO", text "BAR"] = .error { lineNumber := 3, lineText := text "FOO" } ∧
    assemble [text "HALT # stop"] = .error { lineNumber := 1, lineText := text "HALT # stop" } ∧
    assemble [text "READ", text "  NOP  "] = .error { lineNumber := 2, lineText := text "NOP" } := ⟨rfl, rfl, rfl⟩

/-! ### Witnesses: the hypotheses of the statements are met, clause by clause -/

/-- Two READs, two PRINTs, two lines. -/
def reverser : State := midRun [0x01#8, 0x01#8, 0x02#8, 0x02#8] [[0x41#8], [0x42#8]] .eoi 0 [] 0
/-- A READ with no input and no end. -/
def held : State := midRun [0x01#8] [] .pending 0 [] 0
/-- The middle of a run of `01 02`. -/
def middle : State := midRun [0x01#8, 0x02#8] [[0x41#8]] .pending 1 [0x41#8] 1

theorem middle_programLoaded : middle.programLoaded := by
  constructor
  · decide
  · intro a h
    have h : 2 ≤ a := h
    have hm : middle.prog = Memory.ofBytes [0x01#8, 0x02#8] := rfl
    rw [hm, Memory.read_ofBytes]
    simp
    omega

theorem middle_inv : middle.Inv where
  memWf := by decide
  loaded := middle_programLoaded
  ipLe := by decide
  kLe := by decide
  depthLe := by decide
  outLe := by decide
  kReads := by decide
  causeByte := by
    intro b h
    cases h
  running := by
    intro _
    refine ⟨?_, by decide, by decide⟩
    unfold State.pastCompleted
    decide

theorem witness_EveryStepKeepsTheRunInvariant : middle.Inv ∧ ∃ t, step middle = .next t := ⟨middle_inv, _, rfl⟩
theorem witness_FittingRealisationIsNeverOutgrown :
    Realisation.fits { ipWidth := 2, stackDepth := 1 } [0x01#8, 0x02#8, 0xFF#8] = true ∧
    ∃ t, steps 1 (State.start [0x01#8, 0x02#8, 0xFF#8] [[0x41#8]] .eoi) = .next t := ⟨by decide, _, rfl⟩
theorem witness_PopTakesTheTop :
    middle.stack = 0x41#8 :: [] ∧ reverser.depth = 0 ∧ middle.depth < 2 ∧ 1 ≤ middle.depth := by decide
theorem witness_ReadsThenPrintsReverseTheLines :
    reverser.run = .running ∧ reverser.lines.drop reverser.k = [[0x41#8], [0x42#8]] ++ [] ∧
    reverser.ip + 2 * 2 ≤ reverser.progLen ∧
    (∀ j, j < 2 → reverser.prog.read (reverser.ip + j) = some 0x01#8) ∧
    (∀ j, j < 2 → reverser.prog.read (reverser.ip + 2 + j) = some 0x02#8) := by decide
theorem witness_DepthChangesAsStated :
    (∃ t, exec .read reverser = .next t) ∧ (∃ t, exec .print middle = .next t) ∧ (∃ t, exec .add middle = .next t) ∧
    (∃ t, exec .halt middle = .next t) ∧
    ∃ t, step (midRun [0x02#8] [] .eoi 0 [] 0) = .next t ∧ t.run = .faulted .underflowPrint :=
  ⟨⟨_, rfl⟩, ⟨_, rfl⟩, ⟨_, rfl⟩, ⟨_, rfl⟩, _, rfl, rfl⟩
theorem witness_OpcodeTableDirectionsAreInverse :
    decodeByte 0x03#8 = .op .add ∧ lookupMnemonic (text "ADD") = some .add := by decide
theorem witness_StepFollowsItsPseudocode :
    (midRun [] [] .eoi 0 [] 0).run = .running ∧ (midRun [] [] .eoi 0 [] 0).progLen ≤ (midRun [] [] .eoi 0 [] 0).ip ∧
    middle.run = .running ∧ middle.ip < middle.progLen ∧ middle.prog.read middle.ip = some 0x02#8 ∧
    decodeByte 0x02#8 = .op .print ∧ middle.holding = false ∧ decodeByte 0xFE#8 = .unknown ∧
    (midRun [0xFE#8] [] .eoi 0 [] 0).prog.read 0 = some 0xFE#8 ∧
    held.run = .running ∧ held.ip < held.progLen ∧ held.prog.read held.ip = some 0x01#8 ∧
    held.inputLine = .hold := by decide
theorem witness_StepRunsTheDecodedInstruction :
    middle.run = .running ∧ middle.ip < middle.progLen ∧ middle.prog.read middle.ip = some 0x02#8 ∧
    decode (0x02#8 :: [0xFF#8]) = .ok (.print, [0xFF#8]) ∧ Instr.wellFormed .print = true :=
  ⟨rfl, by decide, rfl, rfl, rfl⟩
theorem witness_EndOfBufferHaltsWithStatusZero :
    (midRun [0x01#8] [] .eoi 1 [0x41#8] 0).run = .running ∧
    (midRun [0x01#8] [] .eoi 1 [0x41#8] 0).progLen ≤ (midRun [0x01#8] [] .eoi 1 [0x41#8] 0).ip := by decide
theorem witness_FetchIncrementsIpForEveryByte :
    (midRun [0x00#8] [] .eoi 0 [] 0).run = .running ∧
    (midRun [0x00#8] [] .eoi 0 [] 0).ip < (midRun [0x00#8] [] .eoi 0 [] 0).progLen ∧
    (midRun [0x00#8] [] .eoi 0 [] 0).prog.read 0 = some 0x00#8 ∧ (midRun [0x00#8] [] .eoi 0 [] 0).holding = false ∧
    held.run = .running ∧ held.ip < held.progLen ∧ held.prog.read held.ip = some 0x01#8 ∧ held.holding = true := by decide
theorem witness_RunStateTransitions :
    (∃ t, step middle = .next t) ∧ middle.run = .running ∧ (∃ t, step held = .next t) ∧ held.holding = true ∧
    (∃ t, step middle.halt = .next t) ∧ middle.halt.run ≠ .running :=
  ⟨⟨_, rfl⟩, rfl, ⟨_, rfl⟩, by decide, ⟨_, rfl⟩, by decide⟩
theorem witness_StepMovesExactlyWhenEnabled :
    (∃ t, step middle = .next t ∧ t ≠ middle) ∧ step held = .next held ∧ step middle.halt = .next middle.halt :=
  ⟨⟨_, rfl, by decide⟩, rfl, rfl⟩
theorem witness_TerminalStatesAreAbsorbing : (middle.raiseFault .underflowAdd).run ≠ .running := by decide
theorem witness_IpNeverGoesBack :
    (∃ t, steps 1 middle = .next t ∧ t.run = .running ∧ t.holding = false ∧ fetchCount 1 middle = 1) ∧
    (∃ t, steps 3 (midRun [0xFF#8] [] .eoi 0 [] 0) = .next t ∧ t.run = .halted ∧ t.ip = 1) ∧
    fetchCount 3 (midRun [0xFF#8] [] .eoi 0 [] 0) = 1 ∧ steps 2 held = .next held ∧ fetchCount 2 held = 0 :=
  ⟨⟨_, rfl, rfl, by decide, by decide⟩, ⟨_, rfl, rfl, rfl⟩, by decide, rfl, by decide⟩
theorem witness_NoStepWritesProgramOrInput : ∃ t, steps 1 reverser = .next t ∧ t ≠ reverser := ⟨_, rfl, by decide⟩
theorem witness_ModelStopsOnlyWhereNoByteIsListed :
    middle.Inv ∧ step { middle with prog := [] } = .fault .noProgramByte := ⟨middle_inv, rfl⟩
theorem witness_ReadPushesTheFirstByteOfALine :
    reverser.lines[reverser.k]? = some (0x41#8 :: []) ∧
    (midRun [0x01#8] [[]] .eoi 0 [] 0).lines[(midRun [0x01#8] [[]] .eoi 0 [] 0).k]? = some [] ∧
    (midRun [0x01#8] [] .eoi 0 [] 0).lines[(midRun [0x01#8] [] .eoi 0 [] 0).k]? = none ∧
    (midRun [0x01#8] [] .eoi 0 [] 0).tail = .eoi ∧ held.lines[held.k]? = none ∧ held.tail = .pending := by decide
theorem witness_StreamIsCutAtTheTerminator : [0x41#8] ∈ cutStream .eoi [0x0A#8, 0x41#8] := by decide
theorem witness_HoldLastsUntilInputArrives :
    held.holding = true ∧ held.k = held.lines.length ∧ ([[0x41#8]] : List Line) ≠ [] := by decide
/-- `01 02 01` at end-of-input: after the PRINT the next READ meets the hypotheses of the step's clause. -/
theorem witness_EndOfInputIsPermanent_between :
    let s := midRun [0x01#8, 0x02#8, 0x01#8] [[0x41#8]] .eoi 0 [] 1
    s.lines[s.k]? = none ∧ s.tail = .eoi ∧
      ∃ t, steps 2 s = .next t ∧ t.run = .running ∧ t.ip < t.progLen ∧ t.prog.read t.ip = some 0x01#8 :=
  ⟨by decide, rfl, _, rfl, rfl, by decide, rfl⟩
theorem witness_EndOfInputIsPermanent :
    let s := midRun [0x01#8, 0x01#8] [[0x41#8]] .eoi 0 [] 1
    s.run = .running ∧ s.lines[s.k]? = none ∧ s.tail = .eoi ∧ s.ip + 2 ≤ s.progLen ∧
      ∀ j, j < 2 → s.prog.read (s.ip + j) = some 0x01#8 := by decide
theorem witness_RestOfALineIsNeverSeen :
    ([[0x41#8, 0x58#8], [0x42#8]] : List Line).map lineValue = reverser.lines.map lineValue ∧
    ∃ t, steps 1 reverser = .next t := ⟨by decide, _, rfl⟩
theorem witness_LateInputIsInvisible :
    middle.tail = .pending ∧ ∃ t, steps 1 middle = .next t ∧ t.holding = false := ⟨rfl, _, rfl, by decide⟩
theorem witness_PrintWritesTheTopAsOneByte : middle.stack = 0x41#8 :: [] ∧ reverser.stack = [] := by decide
theorem witness_PrintUnderflowEndsTheRun :
    let s := midRun [0x02#8, 0x42#8] [] .eoi 0 [] 0
    s.run = .running ∧ s.ip < s.progLen ∧ s.prog.read s.ip = some 0x02#8 ∧ s.depth = 0 := by decide
theorem witness_PrintsWriteTheTopValuesInOrder :
    let s := midRun [0x01#8, 0x01#8, 0x02#8, 0x02#8] [] .eoi 2 [0x42#8, 0x41#8] 2
    s.run = .running ∧ s.stack = [0x42#8, 0x41#8] ++ [] ∧ s.ip + 2 ≤ s.progLen ∧
      ∀ j, j < 2 → s.prog.read (s.ip + j) = some 0x02#8 := by decide
theorem witness_OutputOnlyGrows : ∃ t, steps 1 middle = .next t ∧ step middle = .next t ∧ t.out = [0x41#8] :=
  ⟨_, rfl, rfl, rfl⟩
theorem witness_AddReplacesTwoValuesByTheirSum :
    (midRun [0x03#8] [] .eoi 0 [0xFF#8, 0x01#8] 0).stack = 0xFF#8 :: 0x01#8 :: [] ∧ middle.depth < 2 ∧ reverser.depth < 2 := by
  decide
theorem witness_AddUnderflowEndsTheRun :
    let s := midRun [0x01#8, 0x03#8] [[0x41#8]] .eoi 1 [0x41#8] 1
    s.run = .running ∧ s.ip < s.progLen ∧ s.prog.read s.ip = some 0x03#8 ∧ s.depth < 2 := by decide
theorem witness_AddsLeaveTheSumOfAll :
    let s := midRun [0x03#8, 0x03#8] [] .eoi 0 [0x64#8, 0x64#8, 0x64#8] 0
    s.run = .running ∧ s.stack = 0x64#8 :: ([0x64#8, 0x64#8] ++ []) ∧ s.ip + 2 ≤ s.progLen ∧
      ∀ j, j < 2 → s.prog.read (s.ip + j) = some 0x03#8 := by decide
theorem witness_UnknownByteEndsTheRun :
    let s := midRun [0x42#8, 0x02#8] [] .eoi 0 [] 0
    s.run = .running ∧ s.ip < s.progLen ∧ s.prog.read s.ip = some 0x42#8 ∧ isOpcode 0x42#8 = false ∧
      (stepNext s).map State.run = some (.faulted (.unknownOpcode 0x42#8)) := by decide
theorem witness_FaultTable : middle.run = .running ∧ (∃ t, step middle = .next t) ∧ 15 < 16 := ⟨rfl, ⟨_, rfl⟩, by decide⟩
theorem witness_FaultsArePrecise :
    let s := midRun [0x02#8] [] .eoi 0 [] 0
    s.run = .running ∧ ∃ t, step s = .next t ∧ t.run = .faulted .underflowPrint := ⟨rfl, _, rfl, rfl⟩
theorem witness_frames :
    (∃ t, exec .read reverser = .next t) ∧ (∃ t, exec .print middle = .next t) ∧ (∃ t, exec .print reverser = .next t) ∧
    (∃ t, exec .add middle = .next t) ∧ (∃ t, exec .halt middle = .next t) :=
  ⟨⟨_, rfl⟩, ⟨_, rfl⟩, ⟨_, rfl⟩, ⟨_, rfl⟩, ⟨_, rfl⟩⟩
theorem witness_EveryRunEndsOrHolds :
    middle.programLoaded ∧ middle.ip ≤ middle.progLen ∧ middle.k ≤ middle.lines.length ∧
    middle.prog.countBelow 0x01#8 middle.progLen + middle.k ≤
      middle.prog.countBelow 0x01#8 middle.ip + middle.lines.length ∧ reverser.tail = .eoi :=
  ⟨middle_programLoaded, by decide, by decide, by decide, rfl⟩
theorem witness_EventsAreTheRun :
    (∃ t, steps 1 middle = .next t) ∧ trace 1 (midRun [0xFF#8] [] .eoi 0 [] 0) = [] ++ .exit 0 :: [] ∧
    Event.exitStatus (.exit 0) ≠ none := ⟨⟨_, rfl⟩, by decide, by decide⟩
/-- Each kind of step that the second part of EventsAreTheRun tells apart. -/
theorem witness_EventsAreTheRun_steps :
    middle.halt.run ≠ .running ∧ (midRun [] [] .eoi 0 [] 0).progLen ≤ (midRun [] [] .eoi 0 [] 0).ip ∧
    [midRun [0x01#8] [[0x41#8]] .eoi 0 [] 0, midRun [0x01#8] [] .eoi 0 [] 0, held,
      midRun [0x02#8] [] .eoi 0 [0x41#8] 0, midRun [0x02#8] [] .eoi 0 [] 0,
      midRun [0x03#8] [] .eoi 0 [0x41#8, 0x42#8] 0, midRun [0x03#8] [] .eoi 0 [0x41#8] 0,
      midRun [0xFF#8] [] .eoi 0 [] 0, midRun [0x42#8] [] .eoi 0 [] 0].map stepEvents =
      [[.inLine [0x41#8]], [.inEoi], [], [.out 0x41#8], [.exit 2], [], [.exit 2], [.exit 0], [.exit 3]] := by decide
theorem witness_DeadBytesNeverMatter :
    ∃ t, steps 1 (midRun [0xFF#8, 0x42#8] [] .eoi 0 [] 0) = .next t ∧ t.run ≠ .running ∧ t.ip ≤ 1 :=
  ⟨_, rfl, by decide, by decide⟩
theorem witness_HostResetStartsAFreshRun :
    ∃ t, steps 1 (State.start [0x01#8] [[0x41#8], [0x42#8]] .eoi) = .next t ∧ t.k = 1 := ⟨_, rfl, rfl⟩
theorem witness_assembler :
    isSpace 0x20#8 = true ∧ (trim (text " READ\t")).head? = some 0x52#8 ∧
    (trim (text " READ\t")).getLast? = some 0x44#8 ∧ classifyLine (text "  # c") = .skip ∧
    classifyLine (text " ADD ") = .instr .add ∧ classifyLine (text " NOP ") = .bad (text "NOP") := by decide
theorem witness_AssembledBuffersHaveNoUnknownOpcode :
    assemble [text "PRINT"] = .ok [0x02#8] ∧ ∃ t, steps 1 (State.start [0x02#8] [] .eoi) = .next t := ⟨rfl, _, rfl⟩

end Sys2Proof.Tests
end

section
/-! PROOFS. Reset, the start of a run, and `pop` (10_state.md R12, R13, R23). -/

namespace Sys2Proof.Machine

/-- The start of a run is the reset state with the buffer and the input environment in place (R23, R98). -/
theorem State.start_eq (buffer : List Byte) (lines : List Line) (tail : InputTail) :
    State.start buffer lines tail =
      { State.reset with
        prog := Memory.ofBytes buffer, progLen := buffer.length, lines := lines, tail := tail } := rfl

theorem State.fetch_start (buffer : List Byte) (lines : List Line) (tail : InputTail) :
    (State.start buffer lines tail).fetch = buffer[0]? :=
  Memory.read_ofBytes buffer 0

/-- Settles O1: a start differs from reset in the parameters of the run alone, and the entry point is the first byte
of the loaded buffer. -/
theorem resetLeavesTheStatedValues : Obligations.ResetLeavesTheStatedValues := by
  refine ⟨⟨rfl, rfl, rfl, rfl, rfl, rfl⟩, fun buffer lines tail => ?_⟩
  have entry : (State.start buffer lines tail).fetch = buffer[0]? := State.fetch_start buffer lines tail
  rw [State.start_eq] at entry ⊢
  exact ⟨rfl, rfl, rfl, rfl, rfl, rfl, entry⟩

/-- The mask of R12 is the truncation to a byte. -/
theorem ofNat_masked (v : Nat) : BitVec.ofNat 8 (v &&& 0xFF) = BitVec.ofNat 8 v := by
  have mask : v &&& 0xFF = v % 2 ^ 8 := Nat.and_two_pow_sub_one_eq_mod v 8
  rw [mask]
  exact BitVec.eq_of_toNat_eq (by simp only [BitVec.toNat_ofNat, Nat.mod_mod])

theorem State.depth_cons {s : State} {v : Byte} {rest : List Byte} (h : s.stack = v :: rest) :
    s.depth = rest.length + 1 := by
  rw [State.depth, h, List.length_cons]

theorem State.stack_eq_nil_of_depth {s : State} (h : s.depth = 0) : s.stack = [] :=
  List.eq_nil_of_length_eq_zero h

/-- With a value on the stack, the operand of PRINT is what `pop` answers (R75). -/
theorem State.popOne_eq_pop {s : State} (h : 1 ≤ s.depth) : s.popOne = s.pop :=
  if_neg (Nat.one_le_iff_ne_zero.mp h)

/-- A pop takes back what a push put on top, and the state before the push is restored (R12, R13). -/
theorem State.pop_push (s : State) (v : Nat) : (s.push v).pop = some (BitVec.ofNat 8 v, s) := by
  rw [State.pop_cons _ _ _ (State.push_stack s v), ofNat_masked]
  rfl

/-- Settles O8, clause by clause from what `pop`, `popOne` and `popTwo` answer on an empty, a short and a nonempty
stack. -/
theorem popTakesTheTop : Obligations.PopTakesTheTop := by
  refine ⟨fun s v rest h => ⟨State.pop_cons s v rest h, (State.depth_cons h).symm⟩, fun s h => ?_,
    State.popTwo_short, fun _ => State.popOne_eq_pop, State.pop_push⟩
  have empty : s.stack = [] := State.stack_eq_nil_of_depth h
  have short : s.depth < 2 := by omega
  exact ⟨State.pop_nil s empty, State.popOne_nil s empty, State.popTwo_short s short⟩

end Sys2Proof.Machine
end

section
/-! PROOFS. The decoder ROM (30_encoding.md R43, R44). -/

namespace Sys2Proof

theorem isOpcode_eq_false_iff (b : Byte) :
    isOpcode b = false ↔ b ≠ 0x01#8 ∧ b ≠ 0x02#8 ∧ b ≠ 0x03#8 ∧ b ≠ 0xFF#8 := by
  simp [isOpcode, and_assoc]

/-- The decoder ROM answers an operation for its own opcode and for no other byte (R43, R47). -/
theorem decodeByte_eq_op_iff (b : Byte) (i : Instr) : decodeByte b = .op i ↔ b = encodeByte i :=
  ⟨fun h => (encodeByte_of_decodeByte h).symm, fun h => h ▸ decodeByte_encodeByte i⟩

/-- What the encoder emits is an opcode (R44, R57). -/
theorem isOpcode_encodeByte (i : Instr) : isOpcode (encodeByte i) = true := by
  cases i <;> rfl

theorem decodeByte_ofNat_unknown_iff {n : Nat} (h : n < 256) :
    decodeByte (BitVec.ofNat 8 n) = .unknown ↔ n ∉ ({0x01, 0x02, 0x03, 0xFF} : Finset Nat) := by
  simp only [decodeByte_unknown_iff, isOpcode_eq_false_iff, ne_eq, ← BitVec.toNat_inj, BitVec.toNat_ofNat,
    Finset.mem_insert, Finset.mem_singleton]
  omega

/-- The bytes answered Unknown are the 256 values without the four opcodes (R44). -/
theorem unknownBytes_length :
    ((List.range 256).filter fun n => decodeByte (BitVec.ofNat 8 n) = .unknown).length = 252 := by
  have unknownBytes : (Finset.range 256).filter (fun n => decodeByte (BitVec.ofNat 8 n) = .unknown) =
      Finset.range 256 \ {0x01, 0x02, 0x03, 0xFF} := by
    rw [Finset.sdiff_eq_filter]
    exact Finset.filter_congr fun n hn => decodeByte_ofNat_unknown_iff (Finset.mem_range.mp hn)
  have four : ({0x01, 0x02, 0x03, 0xFF} : Finset Nat) ⊆ Finset.range 256 := by
    simp [Finset.insert_subset_iff]
  calc _ = ((Finset.range 256).filter fun n => decodeByte (BitVec.ofNat 8 n) = .unknown).card := rfl
    _ = 256 - 4 := by rw [unknownBytes, Finset.card_sdiff_of_subset four, Finset.card_range]; rfl

/-- Settles O12: an operation is answered for its opcode alone, so Unknown is answered for the bytes that are none of
the four. -/
theorem decoderRomAnswersAsTheTable : Obligations.DecoderRomAnswersAsTheTable :=
  ⟨fun b => ⟨decodeByte_eq_op_iff b .read, decodeByte_eq_op_iff b .print, decodeByte_eq_op_iff b .add,
    decodeByte_eq_op_iff b .halt, (decodeByte_unknown_iff b).trans (isOpcode_eq_false_iff b)⟩,
    unknownBytes_length⟩

end Sys2Proof
end

section
/-! PROOFS. The assembler: one pass, a byte per instruction line, the first bad line (30_encoding.md R48 to R54). -/

namespace Sys2Proof.Machine

/-! ### One line -/

/-- The byte a line gives, if any (R52). -/
def lineByte (l : Line) : Option Byte :=
  match classifyLine l with
  | .instr i => some (encodeByte i)
  | _ => none

theorem lineByte_skip {l : Line} (h : classifyLine l = .skip) : lineByte l = none := by
  rw [lineByte, h]

theorem lineByte_instr {l : Line} {i : Instr} (h : classifyLine l = .instr i) :
    lineByte l = some (encodeByte i) := by
  rw [lineByte, h]

/-- A byte that a line gives is the opcode of an instruction. -/
theorem exists_encodeByte_of_lineByte {l : Line} {b : Byte} (h : lineByte l = some b) : ∃ i, encodeByte i = b := by
  unfold lineByte at h
  split at h
  · exact ⟨_, Option.some.inj h⟩
  · cases h

/-- The text a bad line is reported with is its trimmed text (R53). -/
theorem text_eq_trim_of_bad {l text : Line} (h : classifyLine l = .bad text) : text = trim l := by
  unfold classifyLine at h
  split at h
  · cases h
  · split at h
    · cases h
    · split at h
      · cases h
      · next htrim _ _ _ => rw [htrim, LineClass.bad.inj h]

/-! ### The pass over the lines -/

theorem assembleFrom_skip {l : Line} (h : classifyLine l = .skip) (n : Nat) (ls : List Line) :
    assembleFrom n (l :: ls) = assembleFrom (n + 1) ls := by
  rw [assembleFrom, h]

theorem assembleFrom_bad {l text : Line} (h : classifyLine l = .bad text) (n : Nat) (ls : List Line) :
    assembleFrom n (l :: ls) = .error { lineNumber := n, lineText := text } := by
  rw [assembleFrom, h]

theorem assembleFrom_instr {l : Line} {i : Instr} (h : classifyLine l = .instr i) (n : Nat) (ls : List Line) :
    assembleFrom n (l :: ls) = (assembleFrom (n + 1) ls).map (encodeByte i :: ·) := by
  rw [assembleFrom, h]
  cases assembleFrom (n + 1) ls <;> rfl

/-- No line is bad: what the assembler accepts (R53). -/
def noBadLine (ls : List Line) : Prop := ∀ l ∈ ls, ∀ text, classifyLine l ≠ .bad text

/-- Lines that are not bad put their bytes in front of what the rest gives, and each of them counts (R52, R54). -/
theorem assembleFrom_append {before : List Line} (h : noBadLine before) (n : Nat) (rest : List Line) :
    assembleFrom n (before ++ rest) =
      (assembleFrom (n + before.length) rest).map (before.filterMap lineByte ++ ·) := by
  induction before generalizing n with
  | nil =>
    show assembleFrom n rest = (assembleFrom n rest).map id
    cases assembleFrom n rest <;> rfl
  | cons l ls ih =>
    obtain ⟨hl, hls⟩ := List.forall_mem_cons.mp h
    have number : n + 1 + ls.length = n + (l :: ls).length := by rw [List.length_cons]; omega
    have tailBytes := number ▸ ih hls (n + 1)
    rw [List.cons_append]
    cases hc : classifyLine l with
    | skip => rw [assembleFrom_skip hc, tailBytes, List.filterMap_cons_none (lineByte_skip hc)]
    | instr i =>
      rw [assembleFrom_instr hc, tailBytes, List.filterMap_cons_some (lineByte_instr hc)]
      cases assembleFrom (n + (l :: ls).length) rest <;> rfl
    | bad text => exact absurd hc (hl text)

/-- Without a bad line the assembler answers the bytes of the lines, in order (R52). -/
theorem assemble_of_noBadLine {source : List Line} (h : noBadLine source) :
    assemble source = .ok (source.filterMap lineByte) := by
  have pass := assembleFrom_append h 1 []
  rw [List.append_nil] at pass
  rw [assemble, pass, assembleFrom, Except.map, List.append_nil]

/-- At the first bad line the assembler fails, with that line's number and trimmed text (R53, R54). -/
theorem assemble_of_firstBadLine {before : List Line} {l : Line} (after : List Line) (h : noBadLine before)
    (hl : classifyLine l = .bad (trim l)) :
    assemble (before ++ l :: after) = .error { lineNumber := before.length + 1, lineText := trim l } := by
  rw [assemble, assembleFrom_append h, assembleFrom_bad hl, Except.map, Nat.add_comm]

/-- A source has no bad line, or a first one. -/
theorem noBadLine_or_firstBadLine (source : List Line) :
    noBadLine source ∨ ∃ before l after, source = before ++ l :: after ∧ noBadLine before ∧
      classifyLine l = .bad (trim l) := by
  induction source with
  | nil => exact .inl (List.forall_mem_nil _)
  | cons l ls ih =>
    by_cases hl : ∃ text, classifyLine l = .bad text
    · obtain ⟨text, ht⟩ := hl
      exact .inr ⟨[], l, ls, rfl, List.forall_mem_nil _, text_eq_trim_of_bad ht ▸ ht⟩
    · have good : ∀ text, classifyLine l ≠ .bad text := not_exists.mp hl
      rcases ih with hls | ⟨before, m, after, rfl, hb, hm⟩
      · exact .inl (List.forall_mem_cons.mpr ⟨good, hls⟩)
      · exact .inr ⟨l :: before, m, after, rfl, List.forall_mem_cons.mpr ⟨good, hb⟩, hm⟩

theorem assemble_eq_ok_iff (source : List Line) (buffer : List Byte) :
    assemble source = .ok buffer ↔ noBadLine source ∧ buffer = source.filterMap lineByte := by
  constructor
  · intro h
    rcases noBadLine_or_firstBadLine source with good | ⟨before, l, after, rfl, hb, hl⟩
    · rw [assemble_of_noBadLine good] at h
      exact ⟨good, (Except.ok.inj h).symm⟩
    · rw [assemble_of_firstBadLine after hb hl] at h
      cases h
  · rintro ⟨good, rfl⟩
    exact assemble_of_noBadLine good

/-- Settles O58: `lineByte` is the function the statement filters the lines by. -/
theorem assemblerEmitsOneBytePerInstruction : Obligations.AssemblerEmitsOneBytePerInstruction :=
  assemble_eq_ok_iff

/-- Settles O59: a source that fails has a first bad line, and there is only one error a source can end in. -/
theorem assemblerReportsTheFirstBadLine : Obligations.AssemblerReportsTheFirstBadLine := by
  intro source e
  constructor
  · intro h
    rcases noBadLine_or_firstBadLine source with good | ⟨before, l, after, rfl, hb, hl⟩
    · rw [assemble_of_noBadLine good] at h
      cases h
    · refine ⟨before, l, after, rfl, hb, hl, ?_, by rw [h]; rfl⟩
      rw [assemble_of_firstBadLine after hb hl] at h
      exact (Except.error.inj h).symm
  · rintro ⟨before, l, after, rfl, hb, hl, rfl, _⟩
    exact assemble_of_firstBadLine after hb hl

end Sys2Proof.Machine
end

section
/-! PROOFS. Runs of assembled buffers (30_encoding.md R57). -/

namespace Sys2Proof.Machine

theorem isOpcode_of_mem_assembled {source : List Line} {buffer : List Byte} (h : assemble source = .ok buffer)
    {b : Byte} (hb : b ∈ buffer) : isOpcode b = true := by
  obtain ⟨_, rfl⟩ := (assemble_eq_ok_iff source buffer).mp h
  obtain ⟨l, _, hl⟩ := List.mem_filterMap.mp hb
  obtain ⟨i, rfl⟩ := exists_encodeByte_of_lineByte hl
  exact isOpcode_encodeByte i

/-- The byte that an unknown-opcode fault records is no opcode and stands in the program space (R15, R85). -/
def State.recordedByteListed (s : State) : Prop :=
  ∀ b, s.run = .faulted (.unknownOpcode b) → isOpcode b = false ∧ ∃ a, s.prog.read a = some b

theorem State.recordedByteListed_of_running {s : State} (h : s.run = .running) : s.recordedByteListed := by
  intro b hb
  rw [h] at hb
  cases hb

/-- Only the fetch of an unknown byte raises the fault, so every step keeps the recorded byte among the listed ones. -/
theorem step_keeps_recordedByteListed (s t : State) (h : step s = .next t) (hs : s.recordedByteListed) :
    t.recordedByteListed := by
  intro b ht
  cases stepCase_of_step h with
  | terminal _ => exact hs b ht
  | endOfBuffer _ _ => cases ht
  | fetched c t hr _ hread hc =>
    cases hc with
    | readLine | readEoi | readHold | print | add => exact hs b ht
    | printFault | addFault | halt => cases ht
    | unknown c hop =>
      cases ht
      exact ⟨hop, s.ip, hread⟩

/-- A run that faults with an unknown opcode has that byte, no opcode, in its buffer. -/
theorem mem_of_unknownOpcode {buffer : List Byte} {lines : List Line} {tail : InputTail} {n : Nat} {t : State}
    (h : steps n (State.start buffer lines tail) = .next t) {b : Byte} (ht : t.run = .faulted (.unknownOpcode b)) :
    b ∈ buffer ∧ isOpcode b = false := by
  have listed : t.recordedByteListed :=
    steps_induction step_keeps_recordedByteListed n _ t h (State.recordedByteListed_of_running rfl)
  obtain ⟨hprog, _⟩ := steps_keep_parameters h
  obtain ⟨hop, a, ha⟩ := listed b ht
  have loaded : buffer[a]? = some b := by
    rw [← Memory.read_ofBytes, ← ha, hprog]
    rfl
  exact ⟨List.mem_of_getElem? loaded, hop⟩

/-- A lone PRINT assembles, and its run ends with status 2 on any input. -/
theorem print_assembles_and_underflows :
    assemble [mnemonicKey .print] = .ok [0x02#8] ∧ ∀ lines tail,
      ∃ r, runBuffer [0x02#8] lines tail = some r ∧ statusOf r.run = some 2 :=
  ⟨rfl, fun _ _ => ⟨_, rfl, rfl⟩⟩

/-- READ and PRINT without a HALT assemble, and their run ends with status 0 on any input that ends. -/
theorem readPrint_assembles_and_halts :
    assemble [mnemonicKey .read, mnemonicKey .print] = .ok [0x01#8, 0x02#8] ∧ ∀ lines,
      ∃ r, runBuffer [0x01#8, 0x02#8] lines .eoi = some r ∧ statusOf r.run = some 0 := by
  refine ⟨rfl, fun lines => ?_⟩
  cases lines with
  | nil => exact ⟨_, rfl, rfl⟩
  | cons l ls => exact ⟨_, rfl, rfl⟩

/-- Settles O60: an unknown-opcode fault would record a byte of the buffer that is no opcode, and an assembled buffer
holds opcodes only; a lone PRINT and a READ with a PRINT show the two endings that stay possible. -/
theorem assembledBuffersHaveNoUnknownOpcode : Obligations.AssembledBuffersHaveNoUnknownOpcode := by
  refine ⟨fun source buffer lines tail n t ha h b ht => ?_, ⟨_, _, print_assembles_and_underflows⟩, ?_⟩
  · obtain ⟨hmem, hop⟩ := mem_of_unknownOpcode h ht
    rw [isOpcode_of_mem_assembled ha hmem] at hop
    cases hop
  · obtain ⟨assembled, halts⟩ := readPrint_assembles_and_halts
    exact ⟨_, _, assembled, by decide, halts⟩

end Sys2Proof.Machine
end

section
/-! PROOFS. The fetch, the transitions of the run state, the end of the buffer (40_fetch_control.md R59 to R62, R65). -/

namespace Sys2Proof.Machine

/-! ### What a fetched byte does to `ip` and `run` -/

/-- A fetch moves `ip` past the byte, except that a READ that holds does not happen (R61, R72). -/
theorem FetchCase.holding_or_ip {s t : State} {b : Byte} (hc : FetchCase s b t) (hr : s.run = .running)
    (hl : s.ip < s.progLen) (hb : s.prog.read s.ip = some b) :
    (s.holding = true ∧ t = s) ∨ t.ip = s.ip + 1 := by
  cases hc with
  | readHold hline htail => exact .inl ⟨s.holding_iff.mpr ⟨hr, hl, hb, hline, htail⟩, rfl⟩
  | readLine | readEoi | print | printFault | add | addFault | halt | unknown => exact .inr rfl

/-- Of the fetched bytes HALT alone halts (R59, R63). -/
theorem FetchCase.run_eq_halted_iff {s t : State} {b : Byte} (hc : FetchCase s b t) (hr : s.run = .running) :
    t.run = .halted ↔ b = 0xFF#8 := by
  cases hc with
  | readLine | readEoi | readHold | print | add => simp [hr]
  | printFault | addFault | halt => simp
  | unknown b hop =>
    obtain ⟨_, _, _, notHalt⟩ := (isOpcode_eq_false_iff b).mp hop
    simp [notHalt]

/-- A fetched byte faults exactly when its operation finds too few values, or it is no opcode (R59, R83). -/
theorem FetchCase.run_faulted_iff {s t : State} {b : Byte} (hc : FetchCase s b t) (hr : s.run = .running) :
    (∃ c, t.run = .faulted c) ↔
      (b = 0x02#8 ∧ s.depth = 0) ∨ (b = 0x03#8 ∧ s.depth < 2) ∨ isOpcode b = false := by
  cases hc with
  | readLine | readEoi | readHold => simp [hr, isOpcode]
  | print v rest hs => simp [hr, isOpcode, State.depth_cons hs]
  | printFault hs => simp [State.depth, hs]
  | add a c rest hs => simp [hr, isOpcode, State.depth_cons hs]
  | addFault hs => simp [hs]
  | halt => simp [isOpcode]
  | unknown b hop => simp [hop]

/-- Settles O19: the cases of a fetch all move `ip`, but for the hold. -/
theorem fetchIncrementsIpForEveryByte : Obligations.FetchIncrementsIpForEveryByte := by
  intro s b hr hl hb
  constructor
  · intro notHolding
    obtain ⟨t, hstep, hc⟩ := fetchCase_exists s b hr hl hb
    rcases hc.holding_or_ip hr hl hb with ⟨holding, _⟩ | hip
    · rw [notHolding] at holding
      cases holding
    · exact ⟨t, hstep, hip⟩
  · intro holding t hstep
    rw [step_holding holding] at hstep
    exact (Host.Outcome.next.inj hstep).symm

/-- Settles O20, along the cases of a step: a terminal state stays, the end of the buffer halts, and a fetched byte
halts or faults as the two lemmas on `FetchCase` say. -/
theorem runStateTransitions : Obligations.RunStateTransitions := by
  refine ⟨rfl, fun s t hstep => ⟨fun hrun => ?_, fun holding => ?_, fun hr => ?_⟩⟩
  · rw [step_terminal s (s.terminal_true_iff.mpr hrun)] at hstep
    cases hstep
    rfl
  · rw [step_holding holding] at hstep
    exact ⟨(s.holding_iff.mp holding).1, (Host.Outcome.next.inj hstep).symm⟩
  · cases stepCase_of_step hstep with
    | terminal hterm => exact absurd hr (s.terminal_true_iff.mp hterm)
    | endOfBuffer _ hend => simp [hend, Nat.not_lt.mpr hend]
    | fetched b t _ hl hb hc =>
      rw [hc.run_eq_halted_iff hr, hc.run_faulted_iff hr, hb]
      simp [hl, Nat.not_le.mpr hl]

/-- Settles O16, from the equations of `step` in the order of R65; that an operation which does not hold moves `ip` is
R61, of O19. -/
theorem stepFollowsItsPseudocode : Obligations.StepFollowsItsPseudocode := by
  refine fun s hr => ⟨step_end s hr, fun b hl hb => ⟨fun i hd => step_op s b i hr hl hb hd, fun i hd notHolding => ?_,
    fun hd => step_unknown s b hr hl hb ((decodeByte_unknown_iff b).mp hd), fun hd hold t hstep => ?_⟩⟩
  · obtain ⟨moves, _⟩ := fetchIncrementsIpForEveryByte s b hr hl hb
    rw [← step_op s b i hr hl hb hd]
    exact moves notHolding
  · obtain ⟨hline, htail⟩ := s.inputLine_hold_iff.mp hold
    rw [step_op s b .read hr hl hb hd, execRead_hold s hline htail] at hstep
    exact (Host.Outcome.next.inj hstep).symm

/-! ### The end of the buffer -/

theorem stepEvents_end {s : State} (hr : s.run = .running) (h : s.progLen ≤ s.ip) : stepEvents s = [.exit 0] := by
  simp [stepEvents, s.terminal_false_iff.mpr hr, h]

/-- The result of a run is what its `LEN + 1` steps leave behind (R68, R69). -/
theorem runBuffer_of_steps {buffer : List Byte} {lines : List Line} {tail : InputTail} {t : State}
    (h : steps (buffer.length + 1) (State.start buffer lines tail) = .next t) :
    runBuffer buffer lines tail = some t.result := by
  rw [runBuffer, h]

/-- Settles O18: the step at the end of the buffer changes `run` alone, and the empty buffer begins there. -/
theorem endOfBufferHaltsWithStatusZero : Obligations.EndOfBufferHaltsWithStatusZero := by
  refine ⟨fun s hr hend => ⟨step_end s hr hend, rfl, stepEvents_end hr hend⟩, fun lines tail => ?_⟩
  have first : step (State.start [] lines tail) = .next { State.start [] lines tail with run := .halted } :=
    step_end _ rfl (Nat.le_refl 0)
  exact runBuffer_of_steps (buffer := []) (steps_succ_of_step first 0)

end Sys2Proof.Machine
end

section
/-! PROOFS. HALT, and a buffer with and without a HALT as its last byte (40_fetch_control.md R63). -/

namespace Sys2Proof.Machine

/-! ### Steps of a loaded core -/

/-- The cases of a fetch are what the step answers: the converse of the inversion. -/
theorem step_of_fetchCase {s t : State} {b : Byte} (hc : FetchCase s b t) (hr : s.run = .running)
    (hl : s.ip < s.progLen) (hb : s.prog.read s.ip = some b) : step s = .next t := by
  cases hc with
  | readLine l hline => exact (step_op s _ .read hr hl hb rfl).trans (execRead_line s l hline)
  | readEoi hline htail => exact (step_op s _ .read hr hl hb rfl).trans (execRead_eoi s hline htail)
  | readHold hline htail => exact (step_op s _ .read hr hl hb rfl).trans (execRead_hold s hline htail)
  | print v rest hs => exact (step_op s _ .print hr hl hb rfl).trans (execPrint_cons s v rest hs)
  | printFault hs => exact (step_op s _ .print hr hl hb rfl).trans (execPrint_nil s hs)
  | add a c rest hs => exact (step_op s _ .add hr hl hb rfl).trans (execAdd_cons s a c rest hs)
  | addFault hs => exact (step_op s _ .add hr hl hb rfl).trans (execAdd_short s hs)
  | halt => exact (step_op s _ .halt hr hl hb rfl).trans (execHalt_next s)
  | unknown b hop => exact step_unknown s b hr hl hb hop

theorem exists_step_of_steps_succ {n : Nat} {s t : State} (h : steps (n + 1) s = .next t) :
    ∃ u, step s = .next u ∧ steps n u = .next t := by
  cases hs : step s with
  | next u => exact ⟨u, rfl, by rwa [steps_succ_of_step hs] at h⟩
  | fault r => simp [steps, hs] at h
  | refused r => simp [steps, hs] at h

theorem State.programLoaded_start (buffer : List Byte) (lines : List Line) (tail : InputTail) :
    (State.start buffer lines tail).programLoaded := by
  rw [State.start_eq]
  constructor
  · intro a (ha : a < buffer.length)
    rw [Memory.read_ofBytes]
    simpa using ha
  · intro a (ha : buffer.length ≤ a)
    rw [Memory.read_ofBytes, List.getElem?_eq_none ha]

/-- A loaded buffer never stops the model (R25, R26; log 2). -/
theorem step_next_of_programLoaded {s : State} (loaded : s.programLoaded) : ∃ t, step s = .next t := by
  by_cases hr : s.run = .running
  · rcases Nat.lt_or_ge s.ip s.progLen with hl | hend
    · obtain ⟨listed, _⟩ := loaded
      obtain ⟨b, hb⟩ := Option.isSome_iff_exists.mp (listed s.ip hl)
      obtain ⟨t, hstep, _⟩ := fetchCase_exists s b hr hl hb
      exact ⟨t, hstep⟩
    · exact ⟨_, step_end s hr hend⟩
  · exact ⟨_, step_terminal s (s.terminal_true_iff.mpr hr)⟩

theorem step_keeps_programLoaded {s t : State} (h : step s = .next t) (loaded : s.programLoaded) :
    t.programLoaded := by
  obtain ⟨hprog, hlen, _⟩ := step_keeps_parameters h
  rwa [State.programLoaded, hprog, hlen]

theorem steps_next_of_programLoaded {s : State} (loaded : s.programLoaded) (n : Nat) :
    ∃ t, steps n s = .next t := by
  induction n generalizing s with
  | zero => exact ⟨s, rfl⟩
  | succ n ih =>
    obtain ⟨u, hu⟩ := step_next_of_programLoaded loaded
    rw [steps_succ_of_step hu]
    exact ih (step_keeps_programLoaded hu loaded)

/-- After `n` steps the core has ended, or holds, or each step has fetched (R61, R65). -/
theorem terminal_or_holding_or_ip_of_steps {n : Nat} {s t : State} (h : steps n s = .next t) :
    t.terminal = true ∨ t.holding = true ∨ t.ip = s.ip + n := by
  induction n generalizing s with
  | zero =>
    cases h
    exact .inr (.inr rfl)
  | succ n ih =>
    obtain ⟨u, hu, hn⟩ := exists_step_of_steps_succ h
    cases stepCase_of_step hu with
    | terminal hterm =>
      rw [steps_terminal s hterm] at hn
      cases hn
      exact .inl hterm
    | endOfBuffer =>
      rw [steps_terminal _ rfl] at hn
      cases hn
      exact .inl rfl
    | fetched b u hr hl hb hc =>
      rcases hc.holding_or_ip hr hl hb with ⟨holding, rfl⟩ | hip
      · rw [steps_holding holding] at hn
        cases hn
        exact .inr (.inl holding)
      · rcases ih hn with hterm | holding | hcount
        · exact .inl hterm
        · exact .inr (.inl holding)
        · exact .inr (.inr (by omega))

/-! ### The same steps in another buffer -/

/-- A buffer that has the bytes of the program space below `LEN`, and may go on. -/
def State.programBegins (s : State) (buffer : List Byte) : Prop :=
  ∀ a, a < s.progLen → buffer[a]? = s.prog.read a

theorem step_keeps_programBegins {s t : State} {buffer : List Byte} (h : step s = .next t)
    (begins : s.programBegins buffer) : t.programBegins buffer := by
  obtain ⟨hprog, hlen, _⟩ := step_keeps_parameters h
  rwa [State.programBegins, hprog, hlen]

theorem steps_keep_programBegins {n : Nat} {s t : State} {buffer : List Byte} (h : steps n s = .next t)
    (begins : s.programBegins buffer) : t.programBegins buffer :=
  steps_induction (fun _ _ => step_keeps_programBegins) n s t h begins

theorem State.programBegins_start (buffer more : List Byte) (lines : List Line) (tail : InputTail) :
    (State.start buffer lines tail).programBegins (buffer ++ more) := by
  rw [State.start_eq]
  intro a (ha : a < buffer.length)
  rw [Memory.read_ofBytes, List.getElem?_append_left ha]

/-- What a fetched byte does depends on no other byte of the program space (R62). -/
theorem FetchCase.loadProgram {s t : State} {b : Byte} (hc : FetchCase s b t) (buffer : List Byte) :
    FetchCase (s.loadProgram buffer) b (t.loadProgram buffer) := by
  cases hc with
  | readLine l hline => exact .readLine l hline
  | readEoi hline htail => exact .readEoi hline htail
  | readHold hline htail => exact .readHold hline htail
  | print v rest hs => exact .print v rest hs
  | printFault hs => exact .printFault hs
  | add a c rest hs => exact .add a c rest hs
  | addFault hs => exact .addFault hs
  | halt => exact .halt
  | unknown b hop => exact .unknown b hop

/-- A step below `LEN` is the same in a longer buffer. -/
theorem step_loadProgram {s t : State} {buffer : List Byte} (begins : s.programBegins buffer)
    (hl : s.ip < s.progLen) (h : step s = .next t) :
    step (s.loadProgram buffer) = .next (t.loadProgram buffer) := by
  cases stepCase_of_step h with
  | terminal hterm => exact step_terminal (s.loadProgram buffer) hterm
  | endOfBuffer _ hend => exact absurd hl (Nat.not_lt.mpr hend)
  | fetched b t hr _ hb hc =>
    have inBuffer : buffer[s.ip]? = some b := (begins s.ip hl).trans hb
    obtain ⟨hlen, _⟩ := List.getElem?_eq_some_iff.mp inBuffer
    exact step_of_fetchCase (hc.loadProgram buffer) hr hlen ((Memory.read_ofBytes buffer s.ip).trans inBuffer)

/-- Steps that stay below `LEN` are the same in a longer buffer. -/
theorem steps_loadProgram {n : Nat} {s t : State} {buffer : List Byte} (begins : s.programBegins buffer)
    (hl : s.ip + n ≤ s.progLen) (h : steps n s = .next t) :
    steps n (s.loadProgram buffer) = .next (t.loadProgram buffer) := by
  induction n generalizing s with
  | zero =>
    cases h
    rfl
  | succ n ih =>
    obtain ⟨u, hu, hn⟩ := exists_step_of_steps_succ h
    obtain ⟨_, hlen, _⟩ := step_keeps_parameters hu
    have hip := step_ip hu
    rw [steps_succ_of_step (step_loadProgram begins (by omega) hu)]
    exact ih (step_keeps_programBegins hu begins) (by omega) hn

/-! ### A HALT as the last byte -/

/-- Where the buffer of `t` ends, one more step and, in the buffer with a HALT behind, two more steps leave the same
result: the core has ended, or holds, or halts implicitly and by the HALT. -/
theorem result_of_last_steps {t : State} {buffer : List Byte} (begins : t.programBegins (buffer ++ [0xFF#8]))
    (hlen : t.progLen = buffer.length)
    (hlast : t.terminal = true ∨ t.holding = true ∨ t.ip = buffer.length) :
    ∃ u v, steps 1 t = .next u ∧ steps 2 (t.loadProgram (buffer ++ [0xFF#8])) = .next v ∧ u.result = v.result := by
  by_cases hterm : t.terminal = true
  · exact ⟨_, _, steps_terminal t hterm 1, steps_terminal (t.loadProgram _) hterm 2, rfl⟩
  by_cases holding : t.holding = true
  · obtain ⟨_, hl, _⟩ := t.holding_iff.mp holding
    have stays := step_loadProgram begins hl (step_holding holding)
    exact ⟨_, _, steps_holding holding 1, (steps_succ_of_step stays 1).trans (steps_succ_of_step stays 0), rfl⟩
  · have hr : t.run = .running := t.terminal_false_iff.mp (Bool.eq_false_iff.mpr hterm)
    have hip : t.ip = buffer.length := (hlast.resolve_left hterm).resolve_left holding
    have implicitly : step t = .next { t with run := .halted } := step_end t hr (by omega)
    have haltByte : (Memory.ofBytes (buffer ++ [0xFF#8])).read t.ip = some 0xFF#8 := by
      rw [Memory.read_ofBytes, hip, List.getElem?_concat_length]
    have below : t.ip < (buffer ++ [0xFF#8]).length := by simp [hip]
    have byHalt := step_of_fetchCase (s := t.loadProgram (buffer ++ [0xFF#8])) .halt hr below haltByte
    exact ⟨_, _, steps_succ_of_step implicitly 0, (steps_succ_of_step byHalt 1).trans (steps_terminal _ rfl 1), rfl⟩

/-- HALT as the last byte and no HALT at all give the same result of a run (R63). -/
theorem runBuffer_append_halt (buffer : List Byte) (lines : List Line) (tail : InputTail) :
    runBuffer (buffer ++ [0xFF#8]) lines tail = runBuffer buffer lines tail := by
  have begins := State.programBegins_start buffer [0xFF#8] lines tail
  obtain ⟨t, ht⟩ := steps_next_of_programLoaded (State.programLoaded_start buffer lines tail) buffer.length
  have ht' : steps buffer.length (State.start (buffer ++ [0xFF#8]) lines tail) =
      .next (t.loadProgram (buffer ++ [0xFF#8])) :=
    steps_loadProgram begins (Nat.le_of_eq (Nat.zero_add _)) ht
  have hlast : t.terminal = true ∨ t.holding = true ∨ t.ip = 0 + buffer.length :=
    terminal_or_holding_or_ip_of_steps ht
  rw [Nat.zero_add] at hlast
  obtain ⟨_, hlen, _⟩ := steps_keep_parameters ht
  obtain ⟨u, v, hu, hv, same⟩ := result_of_last_steps (steps_keep_programBegins ht begins) hlen hlast
  have whole : steps (buffer.length + 1) (State.start buffer lines tail) = .next u := (steps_append ht 1).trans hu
  have whole' : steps ((buffer ++ [0xFF#8]).length + 1) (State.start (buffer ++ [0xFF#8]) lines tail) = .next v := by
    rw [List.length_append, List.length_singleton]
    exact (steps_append ht' 2).trans hv
  rw [runBuffer_of_steps whole, runBuffer_of_steps whole', same]

/-- Settles O42: HALT halts at once and a halted core stays; a HALT appended to a buffer is met only where the run
would halt without it. -/
theorem haltEndsTheRunWithStatusZero : Obligations.HaltEndsTheRunWithStatusZero :=
  ⟨fun s => ⟨execHalt_next s, rfl, steps_terminal _ rfl⟩, runBuffer_append_halt⟩

end Sys2Proof.Machine
end

section
/-! PROOFS. READ at each answer of the input port, PRINT with and without a value (41_io.md R71, R75, R76). -/

namespace Sys2Proof.Machine

/-- Settles O26, by the input port's answer: `lineValue` of a line is its first byte and of an empty line 0, the end of
the input gives 0, and a hold answers the state itself. -/
theorem readPushesTheFirstByteOfALine : Obligations.ReadPushesTheFirstByteOfALine := by
  refine ⟨fun s b rest hline => execRead_line s (b :: rest) hline, fun s hline => execRead_line s [] hline,
    execRead_eoi, fun s hline htail t hexec => ?_⟩
  rw [execRead_hold s hline htail] at hexec
  exact (Host.Outcome.next.inj hexec).symm

/-- Settles O34: the two cases of the stack. -/
theorem printWritesTheTopAsOneByte : Obligations.PrintWritesTheTopAsOneByte :=
  ⟨execPrint_cons, execPrint_nil⟩

/-- What ends the run in one step is what any further steps leave (R64). -/
theorem steps_succ_of_step_terminal {s t : State} (h : step s = .next t) (hterm : t.terminal = true) (n : Nat) :
    steps (n + 1) s = .next t :=
  (steps_succ_of_step h n).trans (steps_terminal t hterm n)

/-- Settles O35: the first step takes the fault, which changes `ip` and `run` alone, and a faulted core stays. -/
theorem printUnderflowEndsTheRun : Obligations.PrintUnderflowEndsTheRun := by
  intro s hr hl hb hdepth n
  have empty : s.stack = [] := State.stack_eq_nil_of_depth hdepth
  have first : step s = .next { s with ip := s.ip + 1, run := .faulted .underflowPrint } :=
    step_of_fetchCase (.printFault empty) hr hl hb
  exact ⟨_, steps_succ_of_step_terminal first rfl n, rfl, rfl, rfl, fun _ => rfl, empty, rfl, rfl, rfl⟩

end Sys2Proof.Machine
end

section
/-! PROOFS. ADD with two values on the stack and with fewer (42_alu.md R79, R81). -/

namespace Sys2Proof.Machine

/-- The sum the ALU pushes is the sum of the operands' values modulo 256 (R80). -/
theorem ofNat_add_mod (a b : Byte) : BitVec.ofNat 8 ((a.toNat + b.toNat) % 256) = a + b := by
  have sum : (a + b).toNat = (a.toNat + b.toNat) % 256 := BitVec.toNat_add a b
  rw [← sum, BitVec.ofNat_toNat, BitVec.setWidth_eq]

/-- Settles O38: the two cases of the stack, the sum read as a number modulo 256. -/
theorem addReplacesTwoValuesByTheirSum : Obligations.AddReplacesTwoValuesByTheirSum := by
  refine ⟨fun s a b rest h => ?_, execAdd_short⟩
  rw [ofNat_add_mod]
  exact execAdd_cons s a b rest h

/-- Settles O40: the first step takes the fault, which changes `ip` and `run` alone, so the one value stays on the
stack; and a faulted core stays. -/
theorem addUnderflowEndsTheRun : Obligations.AddUnderflowEndsTheRun := by
  intro s hr hl hb short n
  have first : step s = .next { s with ip := s.ip + 1, run := .faulted .underflowAdd } :=
    step_of_fetchCase (.addFault short) hr hl hb
  exact ⟨_, steps_succ_of_step_terminal first rfl n, rfl, rfl, rfl, fun _ => rfl, rfl, rfl, rfl, rfl⟩

end Sys2Proof.Machine
end

section
/-! PROOFS. The fault table, fault entry and the exit-status contract (60_exceptions.md R83, R85, R89, R92). -/

namespace Sys2Proof.Machine

/-! ### Which cause a step raises -/

/-- The condition column of the fault table: when the fetched byte `b` raises a cause at `s` (R83). The lemma
`step_run_eq_faulted_iff` ties it to the step. -/
def Cause.raisedBy (s : State) (b : Byte) : Cause → Prop
  | .underflowPrint => b = 0x02#8 ∧ s.depth = 0
  | .underflowAdd => b = 0x03#8 ∧ s.depth < 2
  | .unknownOpcode u => b = u ∧ decodeByte b = .unknown

/-- A fetched byte raises a cause exactly under that cause's condition. -/
theorem FetchCase.run_eq_faulted_iff {s t : State} {b : Byte} (hc : FetchCase s b t) (hr : s.run = .running)
    (c : Cause) : t.run = .faulted c ↔ c.raisedBy s b := by
  cases hc with
  | readLine | readEoi | readHold => cases c <;> simp [Cause.raisedBy, hr, decodeByte_read]
  | print v rest hs => cases c <;> simp [Cause.raisedBy, hr, decodeByte_print, State.depth_cons hs]
  | printFault hs => cases c <;> simp [Cause.raisedBy, decodeByte_print, State.depth, hs]
  | add x y rest hs => cases c <;> simp [Cause.raisedBy, hr, decodeByte_add, State.depth_cons hs]
  | addFault short => cases c <;> simp [Cause.raisedBy, decodeByte_add, short]
  | halt => cases c <;> simp [Cause.raisedBy, decodeByte_halt]
  | unknown b hop =>
    obtain ⟨_, notPrint, notAdd, _⟩ := (isOpcode_eq_false_iff b).mp hop
    cases c <;> simp [Cause.raisedBy, notPrint, notAdd, (decodeByte_unknown_iff b).mpr hop]

/-- A running core faults with a cause exactly when it fetches a byte that raises the cause (R83). -/
theorem step_run_eq_faulted_iff {s t : State} (h : step s = .next t) (hr : s.run = .running) (c : Cause) :
    t.run = .faulted c ↔ s.ip < s.progLen ∧ ∃ b, s.prog.read s.ip = some b ∧ c.raisedBy s b := by
  cases stepCase_of_step h with
  | terminal hterm => exact absurd hr (s.terminal_true_iff.mp hterm)
  | endOfBuffer _ hend => simp [Nat.not_lt.mpr hend]
  | fetched b t _ hl hb hc => simp [hc.run_eq_faulted_iff hr, hl, hb]

/-- The row of PRINT in the fault table. -/
theorem step_underflowPrint_iff {s t : State} (h : step s = .next t) (hr : s.run = .running) :
    t.run = .faulted .underflowPrint ↔ s.ip < s.progLen ∧ s.prog.read s.ip = some 0x02#8 ∧ s.depth = 0 := by
  simp [step_run_eq_faulted_iff h hr, Cause.raisedBy]

/-- The row of ADD in the fault table. -/
theorem step_underflowAdd_iff {s t : State} (h : step s = .next t) (hr : s.run = .running) :
    t.run = .faulted .underflowAdd ↔ s.ip < s.progLen ∧ s.prog.read s.ip = some 0x03#8 ∧ s.depth < 2 := by
  simp [step_run_eq_faulted_iff h hr, Cause.raisedBy]

/-- The row of the unknown opcode in the fault table. -/
theorem step_unknownOpcode_iff {s t : State} (h : step s = .next t) (hr : s.run = .running) (b : Byte) :
    t.run = .faulted (.unknownOpcode b) ↔
      s.ip < s.progLen ∧ s.prog.read s.ip = some b ∧ decodeByte b = .unknown := by
  simp [step_run_eq_faulted_iff h hr, Cause.raisedBy]

/-! ### What the host shows for a cause -/

theorem hexByte_toList (upper : Bool) (b : Byte) :
    (hexByte upper b).toList = [hexDigit upper (b.toNat / 16), hexDigit upper (b.toNat % 16)] :=
  String.toList_ofList

/-- The message of an unknown opcode ends in the byte's two hex digits, whatever their casing (R83; log 16). -/
theorem message_unknownOpcode_toList (upper : Bool) (b : Byte) :
    (Cause.message upper (.unknownOpcode b)).toList =
      "unknown opcode 0x".toList ++ [hexDigit upper (b.toNat / 16), hexDigit upper (b.toNat % 16)] := by
  rw [Cause.message, String.toList_append, hexByte_toList]

/-- The digits of both casings are the sixteen hex digits in order. -/
theorem hexDigit_eq_getElem? : ∀ d, d < 16 →
    "0123456789ABCDEF".toList[d]? = some (hexDigit true d) ∧
    "0123456789abcdef".toList[d]? = some (hexDigit false d) := by
  decide

/-- Settles O44: the rows of the table for a step, and what the host shows for each cause. -/
theorem faultTable : Obligations.FaultTable :=
  ⟨fun _ _ hr hstep => ⟨step_underflowPrint_iff hstep hr, step_underflowAdd_iff hstep hr,
      step_unknownOpcode_iff hstep hr⟩,
    rfl, rfl, fun _ => rfl, fun upper => ⟨rfl, rfl, message_unknownOpcode_toList upper⟩, hexDigit_eq_getElem?⟩

/-- Settles O43: the first step takes the fault, which changes `ip` and `run` alone, and a faulted core stays; the
converse is the unknown opcode's row of the fault table. -/
theorem unknownByteEndsTheRun : Obligations.UnknownByteEndsTheRun := by
  refine ⟨fun s b hr hl hb hop n => ?_, fun s t b hr hstep hrun => ?_⟩
  · have first : step s = .next { s with ip := s.ip + 1, run := .faulted (.unknownOpcode b) } :=
      step_unknown s b hr hl hb hop
    exact ⟨_, steps_succ_of_step_terminal first rfl n, rfl, rfl, rfl, rfl, rfl, rfl, rfl,
      fun upper => message_unknownOpcode_toList upper b⟩
  · rw [← decodeByte_unknown_iff]
    exact (step_unknownOpcode_iff hstep hr b).mp hrun

/-! ### Fault entry and the exit status -/

/-- Settles O45: a fault is a change of `run` to a terminal state, which no step leaves (R64). -/
theorem faultEntryChangesOnlyRun : Obligations.FaultEntryChangesOnlyRun :=
  fun s c => ⟨rfl, rfl, rfl, rfl, steps_terminal (s.raiseFault c) rfl⟩

/-- The assembler's status is 1 exactly on a failure (R53, R92). -/
theorem assembleStatus_eq_one_iff (r : Except AssembleError (List Byte)) :
    assembleStatus r = some 1 ↔ ∃ e, r = .error e := by
  cases r <;> simp [assembleStatus]

/-- Settles O47, at each value of the run state. -/
theorem exitStatusContract : Obligations.ExitStatusContract := by
  refine ⟨fun s => ?_, fun source => assembleStatus_eq_one_iff (assemble source)⟩
  unfold State.statusPort
  cases s.run with
  | running | halted => simp [statusOf]
  | faulted c => cases c <;> simp [statusOf]

end Sys2Proof.Machine
end

section
/-! PROOFS. A loaded buffer; the run invariant at every start and over every step; the sizes of a realisation (10_state.md
sections 3 to 9, 20_memory.md section 1, decisions D3 and D4). -/

namespace Sys2Proof.Machine

/-! ### The account of one fetched byte -/

/-- Only READ makes the stack deeper (R10, R14). -/
theorem FetchCase.depth_le {s t : State} {b : Byte} (hc : FetchCase s b t) :
    t.depth ≤ s.depth + if b = 0x01#8 then 1 else 0 := by
  cases hc with
  | readLine | readEoi | readHold => simp [State.depth]
  | print v rest hs => simp [State.depth, hs]
  | add x y rest hs => simp [State.depth, hs]
  | printFault | addFault | halt | unknown => exact Nat.le_add_right _ _

/-- Only PRINT writes, and one byte (R36). -/
theorem FetchCase.out_length_le {s t : State} {b : Byte} (hc : FetchCase s b t) :
    t.out.length ≤ s.out.length + if b = 0x02#8 then 1 else 0 := by
  cases hc with
  | print => simp
  | readLine | readEoi | readHold | printFault | add | addFault | halt | unknown => exact Nat.le_add_right _ _

/-- Only READ takes a line, and one (R71). -/
theorem FetchCase.k_le {s t : State} {b : Byte} (hc : FetchCase s b t) :
    t.k ≤ s.k + if b = 0x01#8 then 1 else 0 := by
  cases hc with
  | readLine => simp
  | readEoi | readHold | print | printFault | add | addFault | halt | unknown => exact Nat.le_add_right _ _

/-- A line is taken only where one is there (R34). -/
theorem FetchCase.k_le_lines {s t : State} {b : Byte} (hc : FetchCase s b t) (hk : s.k ≤ s.lines.length) :
    t.k ≤ s.lines.length := by
  cases hc with
  | readLine l hline =>
    obtain ⟨below, _⟩ := List.getElem?_eq_some_iff.mp hline
    exact below
  | readEoi | readHold | print | printFault | add | addFault | halt | unknown => exact hk

/-- A byte after which the core runs on, past it, is READ, PRINT or ADD, and it changed the stack and the output by
exactly what its operation says (R10, R36). -/
theorem FetchCase.running_account {s t : State} {b : Byte} (hc : FetchCase s b t) (hrun : t.run = .running)
    (hip : t.ip = s.ip + 1) :
    (b = 0x01#8 ∨ b = 0x02#8 ∨ b = 0x03#8) ∧
    t.depth + (if b = 0x02#8 then 1 else 0) + (if b = 0x03#8 then 1 else 0) =
      s.depth + (if b = 0x01#8 then 1 else 0) ∧
    t.out.length = s.out.length + if b = 0x02#8 then 1 else 0 := by
  cases hc with
  | readLine | readEoi => simp [State.depth]
  | readHold => simp at hip
  | print v rest hs => simp [State.depth, hs]
  | add x y rest hs => simp [State.depth, hs]
  | printFault | addFault | halt | unknown => cases hrun

/-- The byte that an unknown-opcode fault records is the fetched one (R85). -/
theorem FetchCase.recorded_byte {s t : State} {b u : Byte} (hc : FetchCase s b t) (hr : s.run = .running)
    (ht : t.run = .faulted (.unknownOpcode u)) : isOpcode u = false ∧ b = u := by
  obtain ⟨hbu, unknown⟩ := (hc.run_eq_faulted_iff hr (.unknownOpcode u)).mp ht
  exact ⟨hbu ▸ (decodeByte_unknown_iff b).mp unknown, hbu⟩

/-! ### The invariant at the start -/

/-- Settles O2: the cells of a loaded buffer are its bytes from index 0 on. -/
theorem loadedBufferReadsBackVerbatim : Obligations.LoadedBufferReadsBackVerbatim := fun buffer s a =>
  ⟨Memory.read_ofBytes buffer a, rfl, Memory.wf_ofBytes buffer, State.programLoaded_start buffer s.lines s.tail⟩

/-- Settles O4: no byte is passed yet, so every count is 0, and the loaded buffer is canonical and complete. -/
theorem runInvariantAtEveryStart : Obligations.RunInvariantAtEveryStart := fun buffer lines tail =>
  { memWf := Memory.wf_ofBytes buffer
    loaded := State.programLoaded_start buffer lines tail
    ipLe := Nat.zero_le _
    kLe := Nat.zero_le _
    depthLe := Nat.le_refl 0
    outLe := Nat.le_refl 0
    kReads := Nat.le_refl 0
    causeByte := fun _ hrun => by cases hrun
    running := fun _ => ⟨fun _ ha => absurd ha (Nat.not_lt_zero _), rfl, rfl⟩ }

/-- Settles O3: reset is the start of the empty buffer on an input that has ended. -/
theorem runInvariantAtReset : Obligations.RunInvariantAtReset :=
  runInvariantAtEveryStart [] [] .eoi

/-! ### The invariant over a step -/

/-- The end of the buffer changes `run` alone, so it keeps every account. -/
theorem State.Inv.halted {s : State} (inv : s.Inv) : State.Inv { s with run := .halted } :=
  { inv with
    causeByte := fun _ hrun => by cases hrun
    running := fun hrun => by cases hrun }

/-- A fetched byte moves `ip` past itself: each count of the bytes passed grows by that byte, and by the lemmas on
`FetchCase` so does at most what it bounds. -/
theorem State.Inv.of_fetchCase {s t : State} {b : Byte} (inv : s.Inv) (hr : s.run = .running) (hl : s.ip < s.progLen)
    (hb : s.prog.read s.ip = some b) (hc : FetchCase s b t) (hip : t.ip = s.ip + 1) : t.Inv := by
  obtain ⟨hprog, hlen, hlines, _⟩ := step_keeps_parameters (step_of_fetchCase hc hr hl hb)
  have passed : ∀ op, t.prog.countBelow op t.ip = s.prog.countBelow op s.ip + if b = op then 1 else 0 := by
    intro op
    simp only [hprog, hip, Memory.countBelow_succ, hb, Option.some_inj]
  exact
    { memWf := hprog ▸ inv.memWf
      loaded := step_keeps_programLoaded (step_of_fetchCase hc hr hl hb) inv.loaded
      ipLe := by omega
      kLe := hlines ▸ hc.k_le_lines inv.kLe
      depthLe := by
        rw [passed]
        exact hc.depth_le.trans (Nat.add_le_add_right inv.depthLe _)
      outLe := by
        rw [passed]
        exact hc.out_length_le.trans (Nat.add_le_add_right inv.outLe _)
      kReads := by
        rw [passed]
        exact hc.k_le.trans (Nat.add_le_add_right inv.kReads _)
      causeByte := fun u hrun => by
        obtain ⟨hop, rfl⟩ := hc.recorded_byte hr hrun
        exact ⟨hop, by omega, by rw [hprog, hip, Nat.add_sub_cancel, hb]⟩
      running := fun hrun => by
        obtain ⟨hcompleted, hdepth, hout⟩ := hc.running_account hrun hip
        obtain ⟨past, stackAccount, outAccount⟩ := inv.running hr
        refine ⟨fun a ha => ?_, by simp only [passed]; omega, by rw [passed, hout, outAccount]⟩
        rw [hprog]
        rcases Nat.lt_or_eq_of_le (Nat.le_of_lt_succ (hip ▸ ha)) with before | rfl
        · exact past a before
        · simpa only [hb, Option.some_inj] using hcompleted }

/-- Settles O5, along the cases of a step: a terminal or a holding core stays, the end of the buffer halts, and any
other step moves `ip` past a byte that it accounts for. -/
theorem everyStepKeepsTheRunInvariant : Obligations.EveryStepKeepsTheRunInvariant := by
  intro s t inv hstep
  cases stepCase_of_step hstep with
  | terminal _ => exact inv
  | endOfBuffer _ _ => exact inv.halted
  | fetched b t hr hl hb hc =>
    rcases hc.holding_or_ip hr hl hb with ⟨_, rfl⟩ | hip
    · exact inv
    · exact inv.of_fetchCase hr hl hb hc hip

/-- The run invariant holds all along every run. -/
theorem inv_of_steps_start {buffer : List Byte} {lines : List Line} {tail : InputTail} {n : Nat} {t : State}
    (h : steps n (State.start buffer lines tail) = .next t) : t.Inv :=
  steps_induction (fun s u hstep inv => everyStepKeepsTheRunInvariant s u inv hstep) n _ t h
    (runInvariantAtEveryStart buffer lines tail)

/-! ### A realisation that fits -/

/-- The opcodes counted in a loaded program space are those of the buffer (R14). -/
theorem Memory.countBelow_ofBytes (buffer : List Byte) (op : Byte) (n : Nat) :
    (Memory.ofBytes buffer).countBelow op n = (buffer.take n).count op := by
  induction n with
  | zero => rfl
  | succ n ih =>
    rw [Memory.countBelow_succ, ih, Memory.read_ofBytes, List.take_add_one, List.count_append]
    cases buffer[n]? with
    | none => simp
    | some b => simp [List.count_singleton]

/-- Settles O6: by the invariant the stack has at most one cell for each READ byte passed, which are at most those of
the buffer, and `ip` is at most `LEN`. -/
theorem fittingRealisationIsNeverOutgrown : Obligations.FittingRealisationIsNeverOutgrown := by
  intro r buffer lines tail n t hfits hsteps
  obtain ⟨lenFits, readsFit⟩ : buffer.length < 2 ^ r.ipWidth ∧ buffer.count 0x01#8 ≤ r.stackDepth := by
    simpa [Realisation.fits] using hfits
  have inv := inv_of_steps_start hsteps
  obtain ⟨hprog, hlen, _⟩ := steps_keep_parameters hsteps
  have depthLe : t.depth ≤ (buffer.take t.ip).count 0x01#8 := by
    rw [← Memory.countBelow_ofBytes]
    exact (congrArg (fun m => t.depth ≤ Memory.countBelow m 0x01#8 t.ip) hprog).mp inv.depthLe
  have ipLe : t.ip ≤ buffer.length := inv.ipLe.trans_eq hlen
  exact ⟨depthLe.trans (((List.take_sublist _ _).count_le _).trans readsFit), by omega⟩

end Sys2Proof.Machine
end

section
/-! PROOFS. Whole buffers and instruction sequences; the opcode table's directions (30_encoding.md sections 1 to 3). -/

namespace Sys2Proof

theorem decodeBuffer_encodeByte (i : Instr) (rest : List Byte) :
    decodeBuffer (encodeByte i :: rest) = (decodeBuffer rest).map (i :: ·) := by
  rw [decodeBuffer, decodeByte_encodeByte]
  cases decodeBuffer rest <;> rfl

theorem decodeBuffer_unknown {b : Byte} (hop : isOpcode b = false) (rest : List Byte) :
    decodeBuffer (b :: rest) = .error (.unknownOpcode b) := by
  rw [decodeBuffer, (decodeByte_unknown_iff b).mpr hop]

theorem encodeBuffer_eq_map (is : List Instr) : encodeBuffer is = is.map encodeByte := by
  induction is with
  | nil => rfl
  | cons i is ih => rw [encodeBuffer, ih, encode, List.singleton_append, List.map_cons]

theorem onlyOpcodes_encodeBuffer (is : List Instr) : onlyOpcodes (encodeBuffer is) = true := by
  simp [onlyOpcodes, encodeBuffer_eq_map, isOpcode_encodeByte]

/-- An encoded sequence in front decodes to that sequence, whatever follows (R46, R47). -/
theorem decodeBuffer_encodeBuffer_append (is : List Instr) (rest : List Byte) :
    decodeBuffer (encodeBuffer is ++ rest) = (decodeBuffer rest).map (is ++ ·) := by
  rw [encodeBuffer_eq_map]
  induction is with
  | nil =>
    show decodeBuffer rest = (decodeBuffer rest).map id
    cases decodeBuffer rest <;> rfl
  | cons i is ih =>
    rw [List.map_cons, List.cons_append, decodeBuffer_encodeByte, ih]
    cases decodeBuffer rest <;> rfl

theorem decodeBuffer_encodeBuffer (is : List Instr) : decodeBuffer (encodeBuffer is) = .ok is := by
  have decoded := decodeBuffer_encodeBuffer_append is []
  rwa [List.append_nil, decodeBuffer, Except.map, List.append_nil] at decoded

theorem decodeBuffer_firstUnknown (is : List Instr) {b : Byte} (hop : isOpcode b = false) (after : List Byte) :
    decodeBuffer (encodeBuffer is ++ b :: after) = .error (.unknownOpcode b) := by
  rw [decodeBuffer_encodeBuffer_append, decodeBuffer_unknown hop, Except.map]

/-- An opcode is the encoding of an instruction (R44, R47). -/
theorem exists_encodeByte_of_isOpcode {b : Byte} (h : isOpcode b = true) : ∃ i, encodeByte i = b := by
  cases hd : decodeByte b with
  | op i => exact ⟨i, encodeByte_of_decodeByte hd⟩
  | unknown =>
    rw [(decodeByte_unknown_iff b).mp hd] at h
    cases h

/-- A buffer is an encoded sequence, or an encoded sequence up to a first byte that is no opcode. -/
theorem encoded_or_firstUnknown (buffer : List Byte) :
    (∃ is, encodeBuffer is = buffer) ∨
    ∃ is b after, buffer = encodeBuffer is ++ b :: after ∧ isOpcode b = false := by
  induction buffer with
  | nil => exact .inl ⟨[], rfl⟩
  | cons b rest ih =>
    cases hop : isOpcode b with
    | false => exact .inr ⟨[], b, rest, rfl, hop⟩
    | true =>
      obtain ⟨i, rfl⟩ := exists_encodeByte_of_isOpcode hop
      rcases ih with ⟨is, rfl⟩ | ⟨is, c, after, rfl, hc⟩
      · exact .inl ⟨i :: is, rfl⟩
      · exact .inr ⟨i :: is, c, after, rfl, hc⟩

theorem exists_encodeBuffer_of_onlyOpcodes {buffer : List Byte} (h : onlyOpcodes buffer = true) :
    ∃ is, encodeBuffer is = buffer := by
  rcases encoded_or_firstUnknown buffer with encoded | ⟨is, b, after, rfl, hop⟩
  · exact encoded
  · simp [onlyOpcodes, hop] at h

theorem decodeBuffer_eq_ok_iff (buffer : List Byte) (is : List Instr) :
    decodeBuffer buffer = .ok is ↔ encodeBuffer is = buffer := by
  constructor
  · intro h
    rcases encoded_or_firstUnknown buffer with ⟨js, rfl⟩ | ⟨js, b, after, rfl, hop⟩
    · rw [decodeBuffer_encodeBuffer] at h
      rw [Except.ok.inj h]
    · rw [decodeBuffer_firstUnknown js hop] at h
      cases h
  · rintro rfl
    exact decodeBuffer_encodeBuffer is

theorem decodeBuffer_eq_error_iff (buffer : List Byte) (r : Reject) :
    decodeBuffer buffer = .error r ↔
      ∃ before b after, buffer = before ++ b :: after ∧ onlyOpcodes before = true ∧ isOpcode b = false ∧
        r = .unknownOpcode b := by
  constructor
  · intro h
    rcases encoded_or_firstUnknown buffer with ⟨is, rfl⟩ | ⟨is, b, after, rfl, hop⟩
    · rw [decodeBuffer_encodeBuffer] at h
      cases h
    · rw [decodeBuffer_firstUnknown is hop] at h
      exact ⟨_, b, after, rfl, onlyOpcodes_encodeBuffer is, hop, (Except.error.inj h).symm⟩
  · rintro ⟨before, b, after, rfl, opcodes, hop, rfl⟩
    obtain ⟨is, rfl⟩ := exists_encodeBuffer_of_onlyOpcodes opcodes
    exact decodeBuffer_firstUnknown is hop after

/-- Settles O15: every buffer is an encoded sequence up to its end or up to a first byte that is no opcode, and the
decoder's answer on either form is known. -/
theorem buffersAndInstructionSequencesAgree : Obligations.BuffersAndInstructionSequencesAgree := by
  refine ⟨fun is => ⟨decodeBuffer_encodeBuffer is, by rw [encodeBuffer_eq_map, List.length_map]⟩,
    decodeBuffer_eq_ok_iff, fun buffer => ?_, decodeBuffer_eq_error_iff⟩
  simp only [decodeBuffer_eq_ok_iff]
  exact ⟨exists_encodeBuffer_of_onlyOpcodes, fun ⟨is, h⟩ => h ▸ onlyOpcodes_encodeBuffer is⟩

/-- Settles O13: each word by evaluation of the decoder. -/
theorem writtenOutWordsDecode : Obligations.WrittenOutWordsDecode := by
  unfold Obligations.WrittenOutWordsDecode
  decide

/-! ### The mnemonic lookup -/

open Machine

/-- The lookup finds the four keys and nothing else (R47, R51). -/
theorem lookupMnemonic_eq_some_iff (text : Line) (i : Instr) :
    lookupMnemonic text = some i ↔ text = mnemonicKey i := by
  constructor
  · intro h
    unfold lookupMnemonic at h
    split_ifs at h <;> cases h <;> assumption
  · rintro rfl
    cases i <;> rfl

/-- Settles O14: the ROM's two round trips, the exact lookup, and the keys as the ASCII bytes of their letters. -/
theorem opcodeTableDirectionsAreInverse : Obligations.OpcodeTableDirectionsAreInverse :=
  ⟨decodeByte_encodeByte, fun _ _ => encodeByte_of_decodeByte,
    fun i => (lookupMnemonic_eq_some_iff _ i).mpr rfl, fun text i => (lookupMnemonic_eq_some_iff text i).mp,
    rfl, rfl, rfl, rfl⟩

end Sys2Proof
end

section
/-! PROOFS. What no run depends on: the rest of a line, when input arrives, the bytes past its end (41_io.md section 1,
decision D9, 40_fetch_control.md R70). -/

namespace Sys2Proof.Machine

/-! ### A change of the state that commutes with every step of a run -/

/-- Steps commute with a change `f` of the state when each step from a state with `Q` does, and `Q` holds along the whole
run because it holds at the end and every step carries it back. -/
theorem steps_commute {f : State → State} {Q : State → Prop} (back : ∀ u v, step u = .next v → Q v → Q u)
    (commute : ∀ u v, step u = .next v → Q u → step (f u) = .next (f v)) {n : Nat} {s t : State}
    (h : steps n s = .next t) (ht : Q t) : steps n (f s) = .next (f t) ∧ Q s := by
  induction n generalizing s with
  | zero =>
    cases h
    exact ⟨rfl, ht⟩
  | succ n ih =>
    obtain ⟨u, hu, hn⟩ := exists_step_of_steps_succ h
    obtain ⟨same, hQ⟩ := ih hn
    have hQs : Q s := back s u hu hQ
    exact ⟨(steps_succ_of_step (commute s u hu hQs) n).trans same, hQs⟩

theorem step_eq_self_of_holding {s t : State} (h : step s = .next t) (holding : s.holding = true) : t = s := by
  rw [step_holding holding] at h
  exact (Host.Outcome.next.inj h).symm

/-! ### A core in another environment -/

/-- The same core beside another program space and another input. -/
def State.inEnvironment (s : State) (prog : Memory) (lines : List Line) (tail : InputTail) : State :=
  { s with prog := prog, lines := lines, tail := tail }

/-- What a fetched byte does depends on no other byte of the program space, and for a READ on the value of the next line
or, where there is none, on the tail (R62, R71). -/
theorem FetchCase.inEnvironment {s t : State} {b : Byte} (hc : FetchCase s b t) (prog : Memory) {lines : List Line}
    {tail : InputTail}
    (sameInput : b = 0x01#8 → (lines[s.k]?).map lineValue = (s.lines[s.k]?).map lineValue ∧
      (s.lines[s.k]? = none → tail = s.tail)) :
    FetchCase (s.inEnvironment prog lines tail) b (t.inEnvironment prog lines tail) := by
  cases hc with
  | readLine l hline =>
    obtain ⟨sameValue, _⟩ := sameInput rfl
    rw [hline, Option.map_some, Option.map_eq_some_iff] at sameValue
    obtain ⟨m, hm, value⟩ := sameValue
    rw [← value]
    exact .readLine m hm
  | readEoi hline htail =>
    obtain ⟨sameValue, sameTail⟩ := sameInput rfl
    rw [hline, Option.map_none, Option.map_eq_none_iff] at sameValue
    exact .readEoi sameValue ((sameTail hline).trans htail)
  | readHold hline htail =>
    obtain ⟨sameValue, sameTail⟩ := sameInput rfl
    rw [hline, Option.map_none, Option.map_eq_none_iff] at sameValue
    exact .readHold sameValue ((sameTail hline).trans htail)
  | print v rest hs => exact .print v rest hs
  | printFault hs => exact .printFault hs
  | add x y rest hs => exact .add x y rest hs
  | addFault hs => exact .addFault hs
  | halt => exact .halt
  | unknown b hop => exact .unknown b hop

/-- A step is the same in another environment that has the same byte where the step fetches and, where it reads, the
same input. -/
theorem step_inEnvironment {s t : State} (h : step s = .next t) {prog : Memory} {lines : List Line} {tail : InputTail}
    (sameByte : s.run = .running → s.ip < s.progLen → prog.read s.ip = s.prog.read s.ip)
    (sameInput : s.run = .running → s.ip < s.progLen → s.prog.read s.ip = some 0x01#8 →
      (lines[s.k]?).map lineValue = (s.lines[s.k]?).map lineValue ∧ (s.lines[s.k]? = none → tail = s.tail)) :
    step (s.inEnvironment prog lines tail) = .next (t.inEnvironment prog lines tail) := by
  cases stepCase_of_step h with
  | terminal hterm => exact step_terminal (s.inEnvironment prog lines tail) hterm
  | endOfBuffer hr hend => exact step_end (s.inEnvironment prog lines tail) hr hend
  | fetched b t hr hl hb hc =>
    have reads := fun hread : b = 0x01#8 => sameInput hr hl (hread ▸ hb)
    exact step_of_fetchCase (hc.inEnvironment prog reads) hr hl ((sameByte hr hl).trans hb)

/-! ### The rest of a line -/

theorem step_withLines {s t : State} (h : step s = .next t) {lines : List Line}
    (same : lines.map lineValue = s.lines.map lineValue) :
    step { s with lines := lines } = .next { t with lines := lines } := by
  obtain ⟨hprog, _, _, htail⟩ := step_keeps_parameters h
  show step (s.inEnvironment s.prog lines s.tail) = .next (t.inEnvironment t.prog lines t.tail)
  rw [hprog, htail]
  refine step_inEnvironment h (fun _ _ => rfl) fun _ _ _ => ⟨?_, fun _ => rfl⟩
  rw [← List.getElem?_map, same, List.getElem?_map]

/-- Settles O30: every step commutes with an exchange of the lines for lines of the same values, and no step changes the
lines. -/
theorem restOfALineIsNeverSeen : Obligations.RestOfALineIsNeverSeen := by
  intro n s t lines same h
  have back : ∀ u v, step u = .next v → lines.map lineValue = v.lines.map lineValue →
      lines.map lineValue = u.lines.map lineValue := by
    intro u v hstep hv
    obtain ⟨_, _, hlines, _⟩ := step_keeps_parameters hstep
    rwa [← hlines]
  have atEnd : lines.map lineValue = t.lines.map lineValue := by
    obtain ⟨_, _, hlines, _⟩ := steps_keep_parameters h
    rwa [hlines]
  exact (steps_commute (f := fun u => { u with lines := lines }) back
    (fun _ _ hstep sameValues => step_withLines hstep sameValues) h atEnd).1

/-! ### Late input -/

/-- A step that does not hold sees neither the lines behind those that are there nor the tail (R72, D9). -/
theorem step_supplyInput {s t : State} (h : step s = .next t) (htail : s.tail = .pending) (hhold : s.holding = false)
    (more : List Line) (tail : InputTail) :
    step (s.supplyInput more tail) = .next (t.supplyInput more tail) := by
  obtain ⟨hprog, _, hlines, _⟩ := step_keeps_parameters h
  show step (s.inEnvironment s.prog (s.lines ++ more) tail) = .next (t.inEnvironment t.prog (t.lines ++ more) tail)
  rw [hprog, hlines]
  refine step_inEnvironment h (fun _ _ => rfl) fun hr hl hb => ?_
  have notNone : s.lines[s.k]? ≠ none := fun hline => by
    rw [s.holding_iff.mpr ⟨hr, hl, hb, hline, htail⟩] at hhold
    cases hhold
  have below : s.k < s.lines.length := Nat.not_le.mp fun hle => notNone (List.getElem?_eq_none hle)
  exact ⟨by rw [List.getElem?_append_left below], fun hline => absurd hline notNone⟩

/-- Settles O31: a run that does not end in a hold held nowhere, since a holding core stays, and a step that does not
hold commutes with the supply of more input. -/
theorem lateInputIsInvisible : Obligations.LateInputIsInvisible := by
  intro n s t more tail htail h hhold
  have back : ∀ u v, step u = .next v → v.tail = .pending ∧ v.holding = false →
      u.tail = .pending ∧ u.holding = false := by
    rintro u v hstep ⟨vtail, vhold⟩
    obtain ⟨_, _, _, sameTail⟩ := step_keeps_parameters hstep
    refine ⟨sameTail ▸ vtail, Bool.eq_false_iff.mpr fun holding => ?_⟩
    rw [step_eq_self_of_holding hstep holding, holding] at vhold
    cases vhold
  have atEnd : t.tail = .pending ∧ t.holding = false := by
    obtain ⟨_, _, _, sameTail⟩ := steps_keep_parameters h
    exact ⟨sameTail.trans htail, hhold⟩
  exact (steps_commute back (fun u v hstep hu => step_supplyInput hstep hu.1 hu.2 more tail) h atEnd).1

/-! ### Bytes past the end of a run -/

/-- The next step fetches no byte at or past `a`: the core has ended, or is at the end of the buffer, or `ip` is before
`a`. -/
def State.fetchesBefore (s : State) (a : Nat) : Prop :=
  s.ip ≤ a ∧ (s.run = .running → s.progLen ≤ s.ip ∨ s.ip < a)

theorem step_withByte {s t : State} (h : step s = .next t) {a : Nat} (before : s.fetchesBefore a) (v : Byte) :
    step (s.withByte a v) = .next (t.withByte a v) := by
  obtain ⟨hprog, _, hlines, htail⟩ := step_keeps_parameters h
  obtain ⟨_, notPast⟩ := before
  show step (s.inEnvironment (s.prog.write a v) s.lines s.tail) =
    .next (t.inEnvironment (t.prog.write a v) t.lines t.tail)
  rw [hprog, hlines, htail]
  refine step_inEnvironment h (fun hr hl => ?_) fun _ _ _ => ⟨rfl, fun _ => rfl⟩
  have below : s.ip < a := (notPast hr).resolve_left (Nat.not_le.mpr hl)
  exact Memory.read_write_other s.prog a s.ip v (Nat.ne_of_lt below)

/-- A step that leaves `ip` at or before `a` came from an `ip` before `a`, unless it fetched nothing. -/
theorem fetchesBefore_of_step {s t : State} (h : step s = .next t) {a : Nat} (ht : t.fetchesBefore a) :
    s.fetchesBefore a := by
  cases stepCase_of_step h with
  | terminal _ => exact ht
  | endOfBuffer _ hend => exact ⟨ht.1, fun _ => .inl hend⟩
  | fetched b t hr hl hb hc =>
    rcases hc.holding_or_ip hr hl hb with ⟨_, rfl⟩ | hip
    · exact ht
    · have hle : t.ip ≤ a := ht.1
      have past : s.ip < a := by omega
      exact ⟨past.le, fun _ => .inr past⟩

/-- Settles O54: no step of the run fetched a byte at or past the final `ip`, and such a step commutes with the exchange
of a byte there. -/
theorem deadBytesNeverMatter : Obligations.DeadBytesNeverMatter := by
  intro n s t a v h ended hip
  have atEnd : t.fetchesBefore a := ⟨hip, fun hr => absurd hr ended⟩
  exact (steps_commute (f := fun u => u.withByte a v)
    (fun _ _ hstep before => fetchesBefore_of_step hstep before)
    (fun _ _ hstep before => step_withByte hstep before v) h atEnd).1

end Sys2Proof.Machine
end

section
/-! PROOFS. Whole runs: every run ends or holds, and is the run of the interpreter (40_fetch_control.md sections 1 and
3, R68, R69). -/

namespace Sys2Proof.Machine

/-! ### A run ends or holds -/

/-- What a running core keeps within its bounds from a state `s` on: `ip` at most `LEN`, and no more lines taken than
READ bytes passed. -/
structure State.Within (s t : State) : Prop where
  prog : t.prog = s.prog
  ipLe : t.ip ≤ t.progLen
  kLe : t.k ≤ t.lines.length
  reads : t.k + t.prog.countBelow 0x01#8 s.ip ≤ s.k + t.prog.countBelow 0x01#8 t.ip

/-- A step passes one byte at most, and takes a line only where it passes a READ. -/
theorem State.Within.of_step {s t u : State} (within : s.Within t) (h : step t = .next u) : s.Within u := by
  obtain ⟨hprog, hlen, hlines, _⟩ := step_keeps_parameters h
  obtain ⟨prog, ipLe, kLe, reads⟩ := within
  cases stepCase_of_step h with
  | terminal _ | endOfBuffer _ _ => exact ⟨prog, ipLe, kLe, reads⟩
  | fetched b u hr hl hb hc =>
    rcases hc.holding_or_ip hr hl hb with ⟨_, rfl⟩ | hip
    · exact ⟨prog, ipLe, kLe, reads⟩
    · have taken := hc.k_le
      have passed : t.prog.countBelow 0x01#8 u.ip = t.prog.countBelow 0x01#8 t.ip + if b = 0x01#8 then 1 else 0 := by
        simp only [hip, Memory.countBelow_succ, hb, Option.some_inj]
      exact ⟨hprog.trans prog, by omega, hlines ▸ hc.k_le_lines kLe, by rw [hprog]; omega⟩

theorem within_of_steps {s t : State} {n : Nat} (h : steps n s = .next t) (ipLe : s.ip ≤ s.progLen)
    (kLe : s.k ≤ s.lines.length) : s.Within t :=
  steps_induction (fun _ _ hstep within => within.of_step hstep) n s t h ⟨rfl, ipLe, kLe, Nat.le_refl _⟩

/-- A core that holds has taken every line there is and stands at one READ more (R72). -/
theorem State.Within.not_holding {s t : State} (within : s.Within t)
    (enough : t.prog.countBelow 0x01#8 t.progLen + s.k ≤ t.prog.countBelow 0x01#8 s.ip + t.lines.length) :
    t.holding ≠ true := by
  intro holding
  obtain ⟨_, hl, hb, hline, _⟩ := t.holding_iff.mp holding
  obtain ⟨_, _, _, reads⟩ := within
  have allTaken : t.lines.length ≤ t.k := List.getElem?_eq_none_iff.mp hline
  have oneMore : t.prog.countBelow 0x01#8 t.ip + 1 ≤ t.prog.countBelow 0x01#8 t.progLen := by
    have passed := t.prog.countBelow_succ 0x01#8 t.ip
    rw [if_pos hb] at passed
    exact passed ▸ Memory.countBelow_mono _ _ hl
  omega

/-- Settles O51: after so many steps a core that neither ended nor holds would have `ip` past `LEN`; and a hold needs a
tail that is pending and more READ bytes than lines. -/
theorem everyRunEndsOrHolds : Obligations.EveryRunEndsOrHolds := by
  intro s loaded hip hk
  obtain ⟨t, ht⟩ := steps_next_of_programLoaded loaded (s.progLen - s.ip + 1)
  have within := within_of_steps ht hip hk
  obtain ⟨hprog, hlen, hlines, htail⟩ := steps_keep_parameters ht
  have ended : t.run ≠ .running ∨ t.holding = true := by
    rcases terminal_or_holding_or_ip_of_steps ht with hterm | holding | hcount
    · exact .inl (t.terminal_true_iff.mp hterm)
    · exact .inr holding
    · have := within.ipLe
      omega
  refine ⟨t, ht, ended, fun heoi => ended.resolve_right fun holding => ?_, fun enough => ended.resolve_right ?_⟩
  · obtain ⟨_, _, _, _, hpending⟩ := t.holding_iff.mp holding
    rw [htail, heoi] at hpending
    cases hpending
  · rw [← hprog, ← hlen, ← hlines] at enough
    exact within.not_holding enough

/-! ### The interpreter -/

/-- What the interpreter makes of the bytes `rest` from the place where a running core stands. -/
def State.interpretRest (s : State) (rest : List Byte) : RunResult :=
  interpret s.tail s.stack (s.lines.drop s.k) s.k s.out rest

theorem drop_eq_cons_of_getElem? {lines : List Line} {k : Nat} {l : Line} (h : lines[k]? = some l) :
    lines.drop k = l :: lines.drop (k + 1) := by
  obtain ⟨below, rfl⟩ := List.getElem?_eq_some_iff.mp h
  exact List.drop_eq_getElem_cons below

theorem drop_eq_nil_of_getElem? {lines : List Line} {k : Nat} (h : lines[k]? = none) : lines.drop k = [] :=
  List.drop_eq_nil_of_le (List.getElem?_eq_none_iff.mp h)

/-- A fetched byte does what the interpreter does with it: the run goes on past it with the rest, or it is over, by a
terminal state or a hold, with the same result (R65). -/
theorem FetchCase.interpretRest {s t : State} {b : Byte} (hc : FetchCase s b t) (hr : s.run = .running)
    (hl : s.ip < s.progLen) (hb : s.prog.read s.ip = some b) (rest : List Byte) :
    (t.run = .running ∧ t.ip = s.ip + 1 ∧ s.interpretRest (b :: rest) = t.interpretRest rest) ∨
    (step t = .next t ∧ s.interpretRest (b :: rest) = t.result) := by
  unfold State.interpretRest
  cases hc with
  | readLine l hline =>
    rw [drop_eq_cons_of_getElem? hline, interpret_line]
    exact .inl ⟨hr, rfl, rfl⟩
  | readEoi hline htail =>
    rw [drop_eq_nil_of_getElem? hline, htail, interpret_eoi]
    exact .inl ⟨hr, rfl, rfl⟩
  | readHold hline htail =>
    rw [drop_eq_nil_of_getElem? hline, htail, interpret_hold, ← hr]
    exact .inr ⟨step_holding (s.holding_iff.mpr ⟨hr, hl, hb, hline, htail⟩), rfl⟩
  | print v below hs =>
    rw [hs, interpret_print]
    exact .inl ⟨hr, rfl, rfl⟩
  | printFault hs =>
    rw [hs, interpret_print_nil]
    exact .inr ⟨step_terminal _ rfl, rfl⟩
  | add x y below hs =>
    rw [hs, interpret_add]
    exact .inl ⟨hr, rfl, rfl⟩
  | addFault short =>
    rw [interpret_add_short _ _ _ _ _ _ short]
    exact .inr ⟨step_terminal _ rfl, rfl⟩
  | halt =>
    rw [interpret_halt]
    exact .inr ⟨step_terminal _ rfl, rfl⟩
  | unknown b hop =>
    rw [interpret_unknown _ _ _ _ _ _ _ hop]
    exact .inr ⟨step_terminal _ rfl, rfl⟩

theorem steps_of_step_self {s : State} (h : step s = .next s) (n : Nat) : steps n s = .next s := by
  induction n with
  | zero => rfl
  | succ n ih => rw [steps_succ_of_step h, ih]

/-- The bytes of the program space from `ip` to its end. -/
def State.remaining (s : State) (rest : List Byte) : Prop :=
  s.progLen = s.ip + rest.length ∧ ∀ j, j < rest.length → s.prog.read (s.ip + j) = rest[j]?

theorem State.remaining_start (buffer : List Byte) (lines : List Line) (tail : InputTail) :
    (State.start buffer lines tail).remaining buffer := by
  refine ⟨(Nat.zero_add _).symm, fun j _ => ?_⟩
  rw [State.start_eq]
  exact (Memory.read_ofBytes buffer _).trans (congrArg (buffer[·]?) (Nat.zero_add j))

theorem State.remaining_cons {s : State} {b : Byte} {rest : List Byte} (h : s.remaining (b :: rest)) :
    s.ip < s.progLen ∧ s.prog.read s.ip = some b := by
  obtain ⟨hlen, hread⟩ := h
  rw [List.length_cons] at hlen
  exact ⟨by omega, hread 0 (Nat.succ_pos _)⟩

theorem State.remaining_tail {s t : State} {b : Byte} {rest : List Byte} (h : s.remaining (b :: rest))
    (hstep : step s = .next t) (hip : t.ip = s.ip + 1) : t.remaining rest := by
  obtain ⟨hlen, hread⟩ := h
  obtain ⟨hprog, hlen', _⟩ := step_keeps_parameters hstep
  rw [List.length_cons] at hlen hread
  refine ⟨by omega, fun j hj => ?_⟩
  rw [hprog, hip, Nat.add_assoc, Nat.add_comm 1 j, hread (j + 1) (Nat.succ_lt_succ hj), List.getElem?_cons_succ]

/-- From any running core, as many steps as there are bytes left and one more leave what the interpreter answers for
these bytes. -/
theorem steps_agree_with_interpret (rest : List Byte) {s : State} (hr : s.run = .running) (hrest : s.remaining rest) :
    ∃ t, steps (rest.length + 1) s = .next t ∧ t.result = s.interpretRest rest := by
  induction rest generalizing s with
  | nil =>
    have hend : s.progLen ≤ s.ip := hrest.1.le
    exact ⟨_, steps_succ_of_step (step_end s hr hend) 0, rfl⟩
  | cons b rest ih =>
    obtain ⟨hl, hb⟩ := State.remaining_cons hrest
    obtain ⟨u, hstep, hc⟩ := fetchCase_exists s b hr hl hb
    rw [List.length_cons, steps_succ_of_step hstep]
    rcases hc.interpretRest hr hl hb rest with ⟨hru, hip, same⟩ | ⟨stays, same⟩
    · rw [same]
      exact ih hru (State.remaining_tail hrest hstep hip)
    · exact ⟨u, steps_of_step_self stays _, same.symm⟩

/-- Settles O52: the start is a running core before the whole buffer, with nothing taken or written. -/
theorem runAgreesWithTheInterpreter : Obligations.RunAgreesWithTheInterpreter := by
  intro buffer lines tail
  obtain ⟨t, ht, same⟩ := steps_agree_with_interpret buffer rfl (State.remaining_start buffer lines tail)
  rw [runBuffer_of_steps ht, same]
  rfl

end Sys2Proof.Machine
end

section
/-! PROOFS. A run as its sequence of events (20_memory.md section 4, R32). -/

namespace Sys2Proof.Machine

/-! ### The events of one step -/

theorem stepEvents_terminal {s : State} (h : s.terminal = true) : stepEvents s = [] := by
  rw [stepEvents, if_pos h]

theorem instrEvents_read_line {s : State} {l : Line} (hline : s.lines[s.k]? = some l) :
    instrEvents s .read = [.inLine l] := by
  rw [instrEvents, s.inputLine_line l hline]

theorem instrEvents_read_eoi {s : State} (hline : s.lines[s.k]? = none) (htail : s.tail = .eoi) :
    instrEvents s .read = [.inEoi] := by
  rw [instrEvents, s.inputLine_eoi hline htail]

theorem instrEvents_read_hold {s : State} (hline : s.lines[s.k]? = none) (htail : s.tail = .pending) :
    instrEvents s .read = [] := by
  rw [instrEvents, s.inputLine_hold hline htail]

theorem instrEvents_print_cons {s : State} {v : Byte} {rest : List Byte} (hs : s.stack = v :: rest) :
    instrEvents s .print = [.out v] := by
  rw [instrEvents, hs]

theorem instrEvents_print_nil {s : State} (hs : s.stack = []) : instrEvents s .print = [.exit 2] := by
  rw [instrEvents, hs]

theorem instrEvents_add {s : State} (h : 2 ≤ s.depth) : instrEvents s .add = [] :=
  if_neg (Nat.not_lt.mpr h)

theorem instrEvents_add_short {s : State} (h : s.depth < 2) : instrEvents s .add = [.exit 2] :=
  if_pos h

section
variable {s : State} {b : Byte} (hr : s.run = .running) (hl : s.ip < s.progLen) (hb : s.prog.read s.ip = some b)
include hr hl hb

theorem stepEvents_op {i : Instr} (hd : decodeByte b = .op i) : stepEvents s = instrEvents s i := by
  simp [stepEvents, s.terminal_false_iff.mpr hr, Nat.not_le.mpr hl, State.fetch, hb, hd]

theorem stepEvents_unknown (hop : isOpcode b = false) : stepEvents s = [.exit 3] := by
  simp [stepEvents, s.terminal_false_iff.mpr hr, Nat.not_le.mpr hl, State.fetch, hb,
    (decodeByte_unknown_iff b).mpr hop]

end

/-! ### The events of many steps -/

theorem trace_succ_of_step {s t : State} (h : step s = .next t) (n : Nat) :
    trace (n + 1) s = stepEvents s ++ trace n t := by
  rw [trace, h]

theorem trace_one (s : State) : trace 1 s = stepEvents s := by
  rw [trace]
  cases step s <;> exact List.append_nil _

theorem trace_terminal {s : State} (h : s.terminal = true) (n : Nat) : trace n s = [] := by
  induction n with
  | zero => rfl
  | succ n ih => rw [trace_succ_of_step (step_terminal s h), stepEvents_terminal h, ih, List.append_nil]

theorem trace_append {m : Nat} {s t : State} (h : steps m s = .next t) (n : Nat) :
    trace (m + n) s = trace m s ++ trace n t := by
  induction m generalizing s with
  | zero =>
    cases h
    rw [Nat.zero_add]
    rfl
  | succ m ih =>
    obtain ⟨u, hu, hm⟩ := exists_step_of_steps_succ h
    rw [Nat.add_right_comm, trace_succ_of_step hu, trace_succ_of_step hu, ih hm, List.append_assoc]

/-! ### What the events account for -/

/-- An Exit event is the last one (R32). -/
def exitOnlyLast (events : List Event) : Prop :=
  ∀ before e after, events = before ++ e :: after → e.exitStatus ≠ none → after = []

theorem exitOnlyLast_nil : exitOnlyLast [] := by
  intro before e after h
  simp at h

theorem exitOnlyLast_singleton (e : Event) : exitOnlyLast [e] := by
  intro before f after h _
  have lengths : 1 = before.length + (after.length + 1) := by
    simpa only [List.length_append, List.length_cons, List.length_nil] using congrArg List.length h
  exact List.eq_nil_of_length_eq_zero (by omega)

/-- Events without an Exit may stand before any others. -/
theorem exitOnlyLast_append {es fs : List Event} (noExit : es.filterMap Event.exitStatus = [])
    (h : exitOnlyLast fs) : exitOnlyLast (es ++ fs) := by
  intro before e after heq hexit
  rcases List.append_eq_append_iff.mp heq with ⟨front, _, hfs⟩ | ⟨back, hes, hrest⟩
  · exact h front e after hfs hexit
  · cases back with
    | nil => exact h [] e after hrest.symm hexit
    | cons f back =>
      obtain ⟨rfl, _⟩ := List.cons.inj hrest
      have inFront : e ∈ es := hes ▸ List.mem_append_right before List.mem_cons_self
      exact absurd (List.filterMap_eq_nil_iff.mp noExit e inFront) hexit

/-- The events between two states of a run say what the outside saw of it: the output, the lines taken, and the exit
(R32). -/
structure State.Accounts (s : State) (events : List Event) (t : State) : Prop where
  out : t.out = s.out ++ events.filterMap Event.outByte
  lines : s.lines.drop s.k = events.filterMap Event.inputLine ++ s.lines.drop t.k
  k : t.k = s.k + (events.filterMap Event.inputLine).length
  exit : events.filterMap Event.exitStatus = if s.run = .running then t.statusPort.toList else []
  exitLast : exitOnlyLast events

theorem State.statusPort_of_running {s : State} (h : s.run = .running) : s.statusPort = none := by
  rw [State.statusPort, h, statusOf]

/-- No Exit event is due where the core did not end. -/
theorem exitStatuses_eq_of_running {s t : State} {events : List Event}
    (noExit : events.filterMap Event.exitStatus = []) (hrun : s.run = .running → t.run = .running) :
    events.filterMap Event.exitStatus = if s.run = .running then t.statusPort.toList else [] := by
  rw [noExit]
  split
  next hr =>
    rw [State.statusPort_of_running (hrun hr)]
    rfl
  next => rfl

/-- Without an event nothing is seen: the state is the same, but for what is inside the core. -/
theorem State.Accounts.nil {s t : State} (hout : t.out = s.out) (hk : t.k = s.k)
    (hrun : s.run = .running → t.run = .running) : s.Accounts [] t where
  out := by rw [hout, List.filterMap_nil, List.append_nil]
  lines := by rw [hk]; rfl
  k := hk
  exit := exitStatuses_eq_of_running rfl hrun
  exitLast := exitOnlyLast_nil

/-- The one event of the step that ends a run is its Exit, with its status. -/
theorem State.Accounts.ended {s t : State} {status : Nat} (hr : s.run = .running) (hout : t.out = s.out)
    (hk : t.k = s.k) (hstatus : t.statusPort = some status) : s.Accounts [.exit status] t where
  out := by rw [hout]; exact (List.append_nil _).symm
  lines := by rw [hk]; rfl
  k := hk
  exit := by rw [if_pos hr, hstatus]; rfl
  exitLast := exitOnlyLast_singleton _

/-- The events of a running core and those that follow account for both stretches together. -/
theorem State.Accounts.append {s t u : State} {es fs : List Event} (first : s.Accounts es t) (second : t.Accounts fs u)
    (hlines : t.lines = s.lines) (hs : s.run = .running) (ht : t.run = .running) : s.Accounts (es ++ fs) u := by
  have noExit : es.filterMap Event.exitStatus = [] := by
    rw [first.exit, State.statusPort_of_running ht, if_pos hs]
    rfl
  have restOfLines := second.lines
  rw [hlines] at restOfLines
  refine ⟨?_, ?_, ?_, ?_, exitOnlyLast_append noExit second.exitLast⟩
  · rw [second.out, first.out, List.filterMap_append, List.append_assoc]
  · rw [first.lines, restOfLines, List.filterMap_append, List.append_assoc]
  · rw [second.k, first.k, List.filterMap_append, List.length_append, Nat.add_assoc]
  · rw [List.filterMap_append, noExit, List.nil_append, second.exit, if_pos ht, if_pos hs]

/-- The event of a fetched byte accounts for what it did. -/
theorem FetchCase.accounts {s t : State} {b : Byte} (hc : FetchCase s b t) (hr : s.run = .running)
    (hl : s.ip < s.progLen) (hb : s.prog.read s.ip = some b) : s.Accounts (stepEvents s) t := by
  cases hc with
  | readLine l hline =>
    rw [stepEvents_op hr hl hb decodeByte_read, instrEvents_read_line hline]
    exact ⟨(List.append_nil _).symm, drop_eq_cons_of_getElem? hline, rfl,
      exitStatuses_eq_of_running rfl id, exitOnlyLast_singleton _⟩
  | readEoi hline htail =>
    rw [stepEvents_op hr hl hb decodeByte_read, instrEvents_read_eoi hline htail]
    exact ⟨(List.append_nil _).symm, rfl, rfl,
      exitStatuses_eq_of_running rfl id, exitOnlyLast_singleton _⟩
  | readHold hline htail =>
    rw [stepEvents_op hr hl hb decodeByte_read, instrEvents_read_hold hline htail]
    exact .nil rfl rfl id
  | print v rest hs =>
    rw [stepEvents_op hr hl hb decodeByte_print, instrEvents_print_cons hs]
    exact ⟨rfl, rfl, rfl, exitStatuses_eq_of_running rfl id, exitOnlyLast_singleton _⟩
  | printFault hs =>
    rw [stepEvents_op hr hl hb decodeByte_print, instrEvents_print_nil hs]
    exact .ended hr rfl rfl rfl
  | add x y rest hs =>
    have two : 2 ≤ s.depth := by simp [State.depth, hs]
    rw [stepEvents_op hr hl hb decodeByte_add, instrEvents_add two]
    exact .nil rfl rfl id
  | addFault short =>
    rw [stepEvents_op hr hl hb decodeByte_add, instrEvents_add_short short]
    exact .ended hr rfl rfl rfl
  | halt =>
    rw [stepEvents_op hr hl hb decodeByte_halt]
    exact .ended hr rfl rfl rfl
  | unknown b hop =>
    rw [stepEvents_unknown hr hl hb hop]
    exact .ended hr rfl rfl rfl

theorem stepEvents_account {s t : State} (h : step s = .next t) : s.Accounts (stepEvents s) t := by
  cases stepCase_of_step h with
  | terminal hterm =>
    rw [stepEvents_terminal hterm]
    exact .nil rfl rfl id
  | endOfBuffer hr hend =>
    rw [stepEvents_end hr hend]
    exact .ended hr rfl rfl rfl
  | fetched b t hr hl hb hc => exact hc.accounts hr hl hb

theorem running_of_step_running {s t : State} (h : step s = .next t) (ht : t.run = .running) : s.run = .running := by
  by_contra hr
  rw [step_terminal s (s.terminal_true_iff.mpr hr)] at h
  cases h
  exact hr ht

/-- The events of any number of steps account for them: while the core runs they add up step by step, and once it has
ended none follows. -/
theorem trace_accounts {n : Nat} {s t : State} (h : steps n s = .next t) : s.Accounts (trace n s) t := by
  induction n generalizing s with
  | zero =>
    cases h
    exact .nil rfl rfl id
  | succ n ih =>
    obtain ⟨u, hu, hn⟩ := exists_step_of_steps_succ h
    have first := stepEvents_account hu
    rw [trace_succ_of_step hu]
    by_cases hru : u.run = .running
    · obtain ⟨_, _, hlines, _⟩ := step_keeps_parameters hu
      exact first.append (ih hn) hlines (running_of_step_running hu hru) hru
    · have hterm := u.terminal_true_iff.mpr hru
      rw [steps_terminal u hterm] at hn
      cases hn
      rwa [trace_terminal hterm, List.append_nil]

/-- Settles O53: the sequence of a run is put together from its steps' events, each step's event is that of its
instruction, and the events account for what the run did. -/
theorem eventsAreTheRun : Obligations.EventsAreTheRun := by
  refine ⟨fun m n s t h => trace_append h n, trace_one, fun s hr => stepEvents_terminal (s.terminal_true_iff.mpr hr),
    fun s => stepEvents_end, fun s b hr hl hb => ?_, fun n s t h => ?_⟩
  · have ofOp := fun {i} => stepEvents_op (i := i) hr hl hb
    refine ⟨?_, ?_, ?_, ?_, ?_, ?_, ?_, ?_, stepEvents_unknown hr hl hb⟩
    · rintro l rfl hline
      exact (ofOp decodeByte_read).trans (instrEvents_read_line hline)
    · rintro rfl hline htail
      exact (ofOp decodeByte_read).trans (instrEvents_read_eoi hline htail)
    · rintro rfl hline htail
      exact (ofOp decodeByte_read).trans (instrEvents_read_hold hline htail)
    · rintro v rest rfl hs
      exact (ofOp decodeByte_print).trans (instrEvents_print_cons hs)
    · rintro rfl hdepth
      exact (ofOp decodeByte_print).trans (instrEvents_print_nil (State.stack_eq_nil_of_depth hdepth))
    · rintro rfl two
      exact (ofOp decodeByte_add).trans (instrEvents_add two)
    · rintro rfl short
      exact (ofOp decodeByte_add).trans (instrEvents_add_short short)
    · rintro rfl
      exact ofOp decodeByte_halt
  · obtain ⟨hout, hlines, hk, hexit, hlast⟩ := trace_accounts h
    exact ⟨hout, hlines, hk, hexit, hlast⟩

end Sys2Proof.Machine
end

section
/-! PROOFS. What each instruction may change, how it changes the depth, and the ALU (41_io.md, 42_alu.md, 10_state.md
section 4, 60_exceptions.md R91). -/

namespace Sys2Proof.Machine

/-! ### `push` -/

/-- Settles O7: the mask of R12 is the remainder modulo 256. -/
theorem pushMasksAndAppends : Obligations.PushMasksAndAppends := by
  intro s v
  have mask : v &&& 0xFF = v % 256 := Nat.and_two_pow_sub_one_eq_mod v 8
  exact ⟨by rw [State.push, mask], rfl⟩

/-! ### What an instruction can answer -/

/-- READ holds and changes nothing, or pushes one value and takes at most one line (R71, R72, R73). -/
theorem execRead_cases {s t : State} (h : exec .read s = .next t) :
    (s.inputLine = .hold ∧ t = s) ∨
    (s.inputLine ≠ .hold ∧ ∃ v k, (k = s.k ∨ k = s.k + 1) ∧
      t = { s with ip := s.ip + 1, stack := v :: s.stack, k := k }) := by
  rw [Ne, State.inputLine_hold_iff]
  rcases s.input_cases with ⟨l, hline⟩ | ⟨hline, htail⟩ | ⟨hline, htail⟩
  · rw [execRead_line s l hline] at h
    exact .inr ⟨by simp [hline], _, _, .inr rfl, (Host.Outcome.next.inj h).symm⟩
  · rw [execRead_eoi s hline htail] at h
    exact .inr ⟨by simp [htail], _, _, .inl rfl, (Host.Outcome.next.inj h).symm⟩
  · rw [execRead_hold s hline htail] at h
    exact .inl ⟨⟨hline, htail⟩, (Host.Outcome.next.inj h).symm⟩

/-- PRINT faults on an empty stack, or moves the top value to the output (R75, R76). -/
theorem execPrint_cases {s t : State} (h : exec .print s = .next t) :
    (s.stack = [] ∧ t = { s with ip := s.ip + 1, run := .faulted .underflowPrint }) ∨
    ∃ v rest, s.stack = v :: rest ∧ t = { s with ip := s.ip + 1, stack := rest, out := s.out ++ [v] } := by
  cases hs : s.stack with
  | nil =>
    rw [execPrint_nil s hs, hs] at h
    exact .inl ⟨rfl, (Host.Outcome.next.inj h).symm⟩
  | cons v rest =>
    rw [execPrint_cons s v rest hs] at h
    exact .inr ⟨v, rest, rfl, (Host.Outcome.next.inj h).symm⟩

/-- ADD faults below two values, or replaces the top two by their sum (R79, R81). -/
theorem execAdd_cases {s t : State} (h : exec .add s = .next t) :
    (s.depth < 2 ∧ t = { s with ip := s.ip + 1, run := .faulted .underflowAdd }) ∨
    ∃ a b rest, s.stack = a :: b :: rest ∧ t = { s with ip := s.ip + 1, stack := (a + b) :: rest } := by
  rcases s.stack_cases with short | ⟨a, b, rest, hs⟩
  · rw [execAdd_short s short] at h
    exact .inl ⟨short, (Host.Outcome.next.inj h).symm⟩
  · rw [execAdd_cons s a b rest hs] at h
    exact .inr ⟨a, b, rest, hs, (Host.Outcome.next.inj h).symm⟩

theorem execHalt_eq {s t : State} (h : exec .halt s = .next t) : t = { s with ip := s.ip + 1, run := .halted } :=
  (Host.Outcome.next.inj h).symm

theorem State.two_le_depth {s : State} {a b : Byte} {rest : List Byte} (h : s.stack = a :: b :: rest) : 2 ≤ s.depth := by
  simp [State.depth, h]

/-! ### Frames -/

/-- Settles O27: READ always answers, and neither a hold nor a completed READ changes `run` or the output. -/
theorem readNeverFaults : Obligations.ReadNeverFaults := by
  intro s
  obtain ⟨t, h⟩ := exec_next .read s
  refine ⟨t, h, ?_⟩
  rcases execRead_cases h with ⟨_, rfl⟩ | ⟨_, v, k, _, rfl⟩
  · exact ⟨rfl, rfl⟩
  · exact ⟨rfl, rfl⟩

/-- Settles O48: nothing above the old stack after a hold, one value after a completed READ. -/
theorem readFrame : Obligations.ReadFrame := by
  intro s t h
  rcases execRead_cases h with ⟨_, rfl⟩ | ⟨_, v, k, hk, rfl⟩
  · exact ⟨⟨[], Nat.zero_le _, rfl⟩, .inl rfl, rfl, rfl, fun _ => rfl, rfl, rfl, rfl, rfl⟩
  · exact ⟨⟨[v], Nat.le_refl _, rfl⟩, hk, rfl, rfl, fun _ => rfl, rfl, rfl, rfl, rfl⟩

/-- Settles O49: the tail of an empty stack is empty, so a fault and a completed PRINT both leave the tail. -/
theorem printFrame : Obligations.PrintFrame := by
  intro s t h
  rcases execPrint_cases h with ⟨hs, rfl⟩ | ⟨v, rest, hs, rfl⟩
  · exact ⟨by rw [hs]; rfl, ⟨[], Nat.zero_le _, (List.append_nil _).symm⟩, .inr ⟨hs, rfl⟩, rfl, fun _ => rfl, rfl,
      rfl, rfl, rfl⟩
  · exact ⟨by rw [hs]; rfl, ⟨[v], Nat.le_refl _, rfl⟩, .inl rfl, rfl, fun _ => rfl, rfl, rfl, rfl, rfl⟩

/-- Settles O50: the two cases of ADD, and the one of HALT. -/
theorem addAndHaltFrames : Obligations.AddAndHaltFrames := by
  refine ⟨fun s t h => ?_, fun s t h => ?_⟩
  · rcases execAdd_cases h with ⟨short, rfl⟩ | ⟨a, b, rest, hs, rfl⟩
    · exact ⟨.inl ⟨short, rfl, rfl⟩, rfl, rfl, fun _ => rfl, rfl, rfl, rfl, rfl⟩
    · exact ⟨.inr ⟨State.two_le_depth hs, by rw [hs]; rfl, rfl⟩, rfl, rfl, fun _ => rfl, rfl, rfl, rfl, rfl⟩
  · rw [execHalt_eq h]
    exact ⟨rfl, rfl, rfl, fun _ => rfl, rfl, rfl, rfl, rfl⟩

/-- Settles O10: each instruction replaces at most the top two values by `top`, the same whatever lies deeper. -/
theorem nothingBelowTheSecondIsRead : Obligations.NothingBelowTheSecondIsRead := by
  intro i s a b
  cases i with
  | read =>
    rcases s.input_cases with ⟨l, hline⟩ | ⟨hline, htail⟩ | ⟨hline, htail⟩
    · exact ⟨{ s with ip := s.ip + 1, k := s.k + 1 }, [lineValue l, a, b], fun _ => execRead_line _ l hline⟩
    · exact ⟨{ s with ip := s.ip + 1 }, [0x00#8, a, b], fun _ => execRead_eoi _ hline htail⟩
    · exact ⟨s, [a, b], fun _ => execRead_hold _ hline htail⟩
  | print => exact ⟨{ s with ip := s.ip + 1, out := s.out ++ [a] }, [b], fun _ => execPrint_cons _ a _ rfl⟩
  | add => exact ⟨{ s with ip := s.ip + 1 }, [a + b], fun _ => execAdd_cons _ a b _ rfl⟩
  | halt => exact ⟨{ s with ip := s.ip + 1, run := .halted }, [a, b], fun _ => execHalt_next _⟩

/-! ### Faults and the depth -/

/-- A fetched byte that faults changes `ip` and `run` alone (R91). -/
theorem FetchCase.eq_of_faulted {s t : State} {b : Byte} (hc : FetchCase s b t) (hr : s.run = .running) {c : Cause}
    (ht : t.run = .faulted c) : t = { s with ip := s.ip + 1, run := .faulted c } := by
  cases hc with
  | readLine | readEoi | readHold | print | add =>
    rw [hr] at ht
    cases ht
  | halt => cases ht
  | printFault | addFault | unknown =>
    cases ht
    rfl

/-- Settles O46: a terminal state is not running, the end of the buffer halts, and a fetched byte faults precisely. -/
theorem faultsArePrecise : Obligations.FaultsArePrecise := by
  intro s t c hr hstep ht
  cases stepCase_of_step hstep with
  | terminal hterm => exact absurd hr (s.terminal_true_iff.mp hterm)
  | endOfBuffer _ _ => cases ht
  | fetched b t _ _ _ hc => exact hc.eq_of_faulted hr ht

/-- Settles O11: the depth in each case of each instruction; that a fault leaves the stack is its precision. -/
theorem depthChangesAsStated : Obligations.DepthChangesAsStated := by
  intro s t
  refine ⟨fun h => ?_, fun h => ?_, fun h => ?_, fun h => by rw [execHalt_eq h]; rfl, fun c hr hstep ht => ?_⟩
  · rcases execRead_cases h with ⟨hold, rfl⟩ | ⟨notHold, v, k, _, rfl⟩
    · rw [if_pos hold]
    · rw [if_neg notHold]
      rfl
  · rcases execPrint_cases h with ⟨hs, rfl⟩ | ⟨v, rest, hs, rfl⟩
    · simp [State.depth, hs]
    · simp [State.depth, hs]
  · rcases execAdd_cases h with ⟨short, rfl⟩ | ⟨a, b, rest, hs, rfl⟩
    · rw [if_pos short]
      rfl
    · rw [if_neg (Nat.not_lt.mpr (State.two_le_depth hs))]
      simp [State.depth, hs]
  · rw [faultsArePrecise s t c hr hstep ht]

/-! ### The ALU -/

/-- The 9 bits of the intermediate hold the whole sum (R80). -/
theorem toNat_sum9 (a b : Byte) : (sum9 a b).toNat = a.toNat + b.toNat := by
  have ha := a.isLt
  have hb := b.isLt
  simp only [sum9, BitVec.toNat_add, BitVec.toNat_setWidth]
  omega

theorem toNat_aluAdd (a b : Byte) : (aluAdd a b).toNat = (a.toNat + b.toNat) % 256 := by
  rw [aluAdd_eq, BitVec.toNat_add]

/-- The carry is lost exactly when the sum does not fit a byte (R80). -/
theorem carryLost_iff (a b : Byte) : carryLost a b = true ↔ 256 ≤ a.toNat + b.toNat := by
  have top : carryLost a b = decide (256 ≤ (sum9 a b).toNat) := BitVec.msb_eq_decide (sum9 a b)
  rw [top, decide_eq_true_iff, toNat_sum9]

/-- The complement of a byte modulo 256 is its inverse. -/
theorem aluAdd_inverse (a : Byte) : aluAdd a (BitVec.ofNat 8 ((256 - a.toNat) % 256)) = 0x00#8 := by
  have ha := a.isLt
  apply BitVec.eq_of_toNat_eq
  rw [toNat_aluAdd, BitVec.toNat_ofNat, BitVec.toNat_ofNat]
  omega

/-- The carry is lost exactly when the result is below both operands. -/
theorem carryLost_iff_below (a b : Byte) :
    carryLost a b = true ↔ (aluAdd a b).toNat < a.toNat ∧ (aluAdd a b).toNat < b.toNat := by
  have ha := a.isLt
  have hb := b.isLt
  rw [carryLost_iff, toNat_aluAdd]
  omega

/-- Settles O39: the ALU's operation is the addition of bytes, and the carry the ninth bit of the whole sum. -/
theorem aluAddsModulo256 : Obligations.AluAddsModulo256 := by
  intro a b c
  refine ⟨toNat_sum9 a b, toNat_aluAdd a b, carryLost_iff a b, ?_, ?_, ?_, aluAdd_inverse a, carryLost_iff_below a b, ?_⟩
  · rw [aluAdd_eq, aluAdd_eq, BitVec.add_comm]
  · simp only [aluAdd_eq, BitVec.add_assoc]
  · rw [aluAdd_eq, BitVec.add_zero]
  · rw [aluAdd_eq, BitVec.toInt_add]

end Sys2Proof.Machine
end

section
/-! PROOFS. When a step moves, where the model stops, and what any number of steps does to `ip`, the output and the
parameters of a run (40_fetch_control.md, 10_state.md sections 3 and 7, 70_reset_and_hazards.md section 1). -/

namespace Sys2Proof.Machine

/-! ### When a step moves -/

theorem State.enabled_eq_false_iff (s : State) : s.enabled = false ↔ s.terminal = true ∨ s.holding = true := by
  rw [State.enabled]
  cases s.terminal <;> simp

/-- Settles O21: the end of the buffer changes `run`, a fetched byte moves `ip` unless it holds, and a terminal or
holding core stays. -/
theorem stepMovesExactlyWhenEnabled : Obligations.StepMovesExactlyWhenEnabled := by
  intro s t hstep
  rw [State.enabled_eq_false_iff]
  constructor
  · intro same
    cases stepCase_of_step hstep with
    | terminal hterm => exact .inl hterm
    | endOfBuffer hr _ =>
      have : RunState.halted = .running := (congrArg State.run same).trans hr
      cases this
    | fetched b t hr hl hb hc =>
      rcases hc.holding_or_ip hr hl hb with ⟨holding, _⟩ | hip
      · exact .inr holding
      · rw [same] at hip
        omega
  · rintro (hterm | holding)
    · rw [step_terminal s hterm] at hstep
      exact (Host.Outcome.next.inj hstep).symm
    · exact step_eq_self_of_holding hstep holding

/-- Settles O22: by induction over the steps, once for the state and once for the events. -/
theorem terminalStatesAreAbsorbing : Obligations.TerminalStatesAreAbsorbing := by
  intro s n hr
  have hterm := s.terminal_true_iff.mpr hr
  exact ⟨steps_terminal s hterm n, trace_terminal hterm n⟩

/-! ### The dispatch, and where the model stops -/

theorem decodeByte_of_decode {b : Byte} {i : Instr} {rest rest' : List Byte} (h : decode (b :: rest) = .ok (i, rest')) :
    decodeByte b = .op i := by
  rw [decode] at h
  cases hd : decodeByte b with
  | op j =>
    rw [hd] at h
    cases h
    rfl
  | unknown =>
    rw [hd] at h
    cases h

/-- The word of an instruction, placed at `ip`, is what the next step fetches (R40; log 3, log 20). -/
theorem State.read_withFetchWord (s : State) (i : Instr) :
    (s.withFetchWord 8 (encodeByte i).toNat).prog.read s.ip = some (encodeByte i) := by
  have word : BitVec.ofNat 8 ((encodeByte i).toNat % 2 ^ 8) = encodeByte i := by
    cases i <;> rfl
  exact (Memory.read_write_same _ _ _).trans (congrArg some word)

/-- Settles O17: `decode` reads its instruction off the decoder ROM, and the placed word is an opcode below `LEN`. -/
theorem stepRunsTheDecodedInstruction : Obligations.StepRunsTheDecodedInstruction := by
  refine ⟨fun s b i rest hr hl hb hd _ => step_op s b i hr hl hb (decodeByte_of_decode hd), fun s i => ?_⟩
  have below : s.ip < max s.progLen (s.ip + 1) := lt_max_of_lt_right (Nat.lt_succ_self _)
  exact step_op _ (encodeByte i) i rfl below (s.read_withFetchWord i) (decodeByte_encodeByte i)

/-- A step answers a next state, but for a running core with no byte listed where it fetches (log 2). -/
theorem step_next_or_unlisted (s : State) :
    (∃ t, step s = .next t) ∨ (s.run = .running ∧ s.ip < s.progLen ∧ s.prog.read s.ip = none) := by
  by_cases hr : s.run = .running
  · rcases Nat.lt_or_ge s.ip s.progLen with hl | hend
    · cases hb : s.prog.read s.ip with
      | none => exact .inr ⟨hr, hl, rfl⟩
      | some b =>
        obtain ⟨t, hstep, _⟩ := fetchCase_exists s b hr hl hb
        exact .inl ⟨t, hstep⟩
    · exact .inl ⟨_, step_end s hr hend⟩
  · exact .inl ⟨_, step_terminal s (s.terminal_true_iff.mpr hr)⟩

/-- Settles O25: the one stop is the fetch of an unlisted byte, which a complete program space does not have. -/
theorem modelStopsOnlyWhereNoByteIsListed : Obligations.ModelStopsOnlyWhereNoByteIsListed := by
  intro s
  refine ⟨⟨fun hfault => ?_, fun ⟨hr, hl, hb⟩ => step_unlisted s hr hl hb⟩, fun r hrefused => ?_,
    fun inv => step_next_of_programLoaded inv.loaded⟩
  · rcases step_next_or_unlisted s with ⟨t, hstep⟩ | unlisted
    · rw [hstep] at hfault
      cases hfault
    · exact unlisted
  · rcases step_next_or_unlisted s with ⟨t, hstep⟩ | ⟨hr, hl, hb⟩
    · rw [hstep] at hrefused
      cases hrefused
    · rw [step_unlisted s hr hl hb] at hrefused
      cases hrefused

/-! ### `ip` -/

/-- A step moves `ip` by the byte it fetches (R9, R61). -/
theorem step_ip_eq {s t : State} (h : step s = .next t) : t.ip = s.ip + if s.fetches then 1 else 0 := by
  by_cases hf : s.fetches = true
  · obtain ⟨hr, hl, notHolding⟩ := s.fetches_iff.mp hf
    rw [if_pos hf]
    cases stepCase_of_step h with
    | terminal hterm => exact absurd hr (s.terminal_true_iff.mp hterm)
    | endOfBuffer _ hend => omega
    | fetched b t _ _ hb hc =>
      refine (hc.holding_or_ip hr hl hb).resolve_left fun ⟨holding, _⟩ => ?_
      rw [notHolding] at holding
      cases holding
  · rw [if_neg hf, Nat.add_zero]
    cases stepCase_of_step h with
    | terminal _ | endOfBuffer _ _ => rfl
    | fetched b t hr hl _ _ =>
      have holding : s.holding = true := by
        by_contra notHolding
        exact hf (s.fetches_iff.mpr ⟨hr, hl, Bool.eq_false_iff.mpr notHolding⟩)
      rw [step_eq_self_of_holding h holding]

theorem steps_ip_eq {n : Nat} {s t : State} (h : steps n s = .next t) : t.ip = s.ip + fetchCount n s := by
  induction n generalizing s with
  | zero =>
    cases h
    rfl
  | succ n ih =>
    obtain ⟨u, hu, hn⟩ := exists_step_of_steps_succ h
    rw [fetchCount_succ_of_step hu, ih hn, step_ip_eq hu, Nat.add_assoc]

theorem fetchCount_le_of_steps {n : Nat} {s t : State} (h : steps n s = .next t) : fetchCount n s ≤ n := by
  induction n generalizing s with
  | zero => exact Nat.le_refl 0
  | succ n ih =>
    obtain ⟨u, hu, hn⟩ := exists_step_of_steps_succ h
    have later := ih hn
    rw [fetchCount_succ_of_step hu]
    split <;> omega

/-- Settles O23: `ip` grows by the fetches, which are at most the steps, and are all of them while the core neither ends
nor holds. -/
theorem ipNeverGoesBack : Obligations.IpNeverGoesBack := by
  intro n s t h
  have fetched := steps_ip_eq h
  have atMost := fetchCount_le_of_steps h
  refine ⟨by omega, by omega, fetched, fun hr notHolding => ?_⟩
  rcases terminal_or_holding_or_ip_of_steps h with hterm | holding | hip
  · exact absurd hr (t.terminal_true_iff.mp hterm)
  · rw [notHolding] at holding
    cases holding
  · exact hip

/-! ### The output -/

/-- A step writes nothing, or the value a PRINT pops (R36, R75). -/
theorem step_out {s t : State} (h : step s = .next t) :
    t.out = s.out ∨
    ∃ v rest, s.stack = v :: rest ∧ s.prog.read s.ip = some 0x02#8 ∧ t.stack = rest ∧ t.out = s.out ++ [v] := by
  cases stepCase_of_step h with
  | terminal _ | endOfBuffer _ _ => exact .inl rfl
  | fetched b t _ _ hb hc =>
    cases hc with
    | print v rest hs => exact .inr ⟨v, rest, hs, hb, rfl, rfl⟩
    | readLine | readEoi | readHold | printFault | add | addFault | halt | unknown => exact .inl rfl

theorem step_out_prefix {s t : State} (h : step s = .next t) : s.out <+: t.out := by
  rcases step_out h with hout | ⟨v, _, _, _, _, hout⟩
  · rw [hout]
  · exact hout ▸ List.prefix_append _ _

/-- Settles O37: each step appends, so by induction what was written stays at the front. -/
theorem outputOnlyGrows : Obligations.OutputOnlyGrows :=
  ⟨fun n s t h => steps_induction (P := fun u => s.out <+: u.out)
      (fun _ _ hstep before => before.trans (step_out_prefix hstep)) n s t h (List.prefix_refl _),
    fun _ _ => step_out⟩

/-! ### The parameters of a run -/

/-- Settles O24: every step keeps the parameters. -/
theorem noStepWritesProgramOrInput : Obligations.NoStepWritesProgramOrInput := by
  intro n s t h
  obtain ⟨hprog, hlen, hlines, htail⟩ := steps_keep_parameters h
  exact ⟨hprog, fun a => by rw [hprog], hlen, hlines, htail⟩

/-- Settles O55: the parameters are still those of the start, but for the lines already taken, and the reset restores
all the rest. -/
theorem hostResetStartsAFreshRun : Obligations.HostResetStartsAFreshRun := by
  intro buffer lines tail n t h
  obtain ⟨hprog, hlen, hlines, htail⟩ := steps_keep_parameters h
  rw [State.hostReset, hprog, hlen, hlines, htail]
  rfl

end Sys2Proof.Machine
end

section
/-! PROOFS. Rows of one instruction: READs, PRINTs, ADDs; a hold and the end of the input (41_io.md, 42_alu.md,
decision D8). -/

namespace Sys2Proof.Machine

/-! ### A row of one opcode -/

/-- The next `n` bytes of the program are all `op`. -/
def State.rowOf (s : State) (op : Byte) (n : Nat) : Prop :=
  s.ip + n ≤ s.progLen ∧ ∀ j, j < n → s.prog.read (s.ip + j) = some op

theorem State.rowOf_head {s : State} {op : Byte} {n : Nat} (row : s.rowOf op (n + 1)) :
    s.ip < s.progLen ∧ s.prog.read s.ip = some op := by
  obtain ⟨hlen, hread⟩ := row
  exact ⟨by omega, hread 0 (Nat.succ_pos n)⟩

/-- Past its first byte the row goes on, one shorter. -/
theorem State.rowOf_tail {s t : State} {op : Byte} {n : Nat} (row : s.rowOf op (n + 1)) (hstep : step s = .next t)
    (hip : t.ip = s.ip + 1) : t.rowOf op n := by
  obtain ⟨hlen, hread⟩ := row
  obtain ⟨hprog, hlen', _⟩ := step_keeps_parameters hstep
  refine ⟨by omega, fun j hj => ?_⟩
  rw [hprog, hip, Nat.add_assoc, Nat.add_comm 1 j]
  exact hread (j + 1) (Nat.succ_lt_succ hj)

/-! ### PRINTs -/

theorem steps_prints (vs rest : List Byte) {s : State} (row : s.rowOf 0x02#8 vs.length) (hr : s.run = .running)
    (hs : s.stack = vs ++ rest) :
    steps vs.length s = .next { s with ip := s.ip + vs.length, stack := rest, out := s.out ++ vs } := by
  induction vs generalizing s with
  | nil => simp [steps, ← show s.stack = rest from hs]
  | cons v vs ih =>
    obtain ⟨hl, hb⟩ := State.rowOf_head row
    have first := step_of_fetchCase (.print v (vs ++ rest) hs) hr hl hb
    have later := ih (State.rowOf_tail row first rfl) hr rfl
    rw [List.length_cons, steps_succ_of_step first, later]
    simp [Nat.add_assoc, Nat.add_comm 1]

/-- Settles O36: each PRINT writes the top, by induction over the values. -/
theorem printsWriteTheTopValuesInOrder : Obligations.PrintsWriteTheTopValuesInOrder :=
  fun vs rest _ hr hs hlen hread => steps_prints vs rest ⟨hlen, hread⟩ hr hs

/-! ### ADDs -/

/-- An ADD leaves the sum of all the values the same modulo 256. -/
theorem sum_add_cons (v w : Byte) (vs : List Byte) :
    (((v + w) :: vs).map BitVec.toNat).sum % 256 = ((v :: w :: vs).map BitVec.toNat).sum % 256 := by
  simp only [List.map_cons, List.sum_cons, BitVec.toNat_add]
  omega

theorem steps_adds (vs rest : List Byte) (v : Byte) {s : State} (row : s.rowOf 0x03#8 vs.length)
    (hr : s.run = .running) (hs : s.stack = v :: (vs ++ rest)) :
    steps vs.length s = .next { s with
      ip := s.ip + vs.length
      stack := BitVec.ofNat 8 (((v :: vs).map BitVec.toNat).sum % 256) :: rest } := by
  induction vs generalizing s v with
  | nil =>
    have only : BitVec.ofNat 8 ((([v] : List Byte).map BitVec.toNat).sum % 256) = v := by
      simpa using ofNat_add_mod v 0x00#8
    rw [only, ← show s.stack = v :: rest from hs]
    rfl
  | cons w vs ih =>
    obtain ⟨hl, hb⟩ := State.rowOf_head row
    have first := step_of_fetchCase (.add v w (vs ++ rest) hs) hr hl hb
    have later := ih (v + w) (State.rowOf_tail row first rfl) hr rfl
    rw [List.length_cons, steps_succ_of_step first, later, sum_add_cons]
    simp only [Nat.add_assoc, Nat.add_comm 1]

/-- Settles O41: each ADD replaces two values by their sum, by induction over the values. -/
theorem addsLeaveTheSumOfAll : Obligations.AddsLeaveTheSumOfAll :=
  fun vs rest v _ hr hs hlen hread => steps_adds vs rest v ⟨hlen, hread⟩ hr hs

/-! ### READs -/

theorem getElem?_of_drop_eq_cons {lines ls : List Line} {k : Nat} {l : Line} (h : lines.drop k = l :: ls) :
    lines[k]? = some l ∧ lines.drop (k + 1) = ls := by
  have atHead : (lines.drop k)[0]? = some l := by rw [h]; rfl
  have behind : (lines.drop k).drop 1 = ls := by rw [h]; rfl
  rw [List.getElem?_drop] at atHead
  rw [List.drop_drop] at behind
  exact ⟨atHead, behind⟩

/-- READs push the values of the next lines, the last on top. -/
theorem steps_reads (ls more : List Line) {s : State} (row : s.rowOf 0x01#8 ls.length) (hr : s.run = .running)
    (hlines : s.lines.drop s.k = ls ++ more) :
    steps ls.length s = .next { s with
      ip := s.ip + ls.length
      k := s.k + ls.length
      stack := (ls.map lineValue).reverse ++ s.stack } := by
  induction ls generalizing s with
  | nil => rfl
  | cons l ls ih =>
    obtain ⟨hl, hb⟩ := State.rowOf_head row
    obtain ⟨hline, behind⟩ := getElem?_of_drop_eq_cons hlines
    have first := step_of_fetchCase (.readLine l hline) hr hl hb
    have later := ih (State.rowOf_tail row first rfl) hr behind
    rw [List.length_cons, steps_succ_of_step first, later]
    simp [Nat.add_assoc, Nat.add_comm 1]

/-- Settles O9: the READs leave the values on the stack with the last on top, and the PRINTs write them from the top. -/
theorem readsThenPrintsReverseTheLines : Obligations.ReadsThenPrintsReverseTheLines := by
  intro s ls more hr hlines hlen hreads hprints
  have reads := steps_reads ls more ⟨by omega, hreads⟩ hr hlines
  have count : (ls.map lineValue).reverse.length = ls.length := by rw [List.length_reverse, List.length_map]
  have row : State.rowOf { s with
      ip := s.ip + ls.length, k := s.k + ls.length, stack := (ls.map lineValue).reverse ++ s.stack } 0x02#8
      (ls.map lineValue).reverse.length := by
    rw [count]
    exact ⟨by simp only; omega, hprints⟩
  have prints := steps_prints _ s.stack row hr rfl
  rw [count] at prints
  rw [Nat.two_mul, steps_append reads, prints, Nat.add_assoc]

/-! ### A hold -/

theorem trace_holding {s : State} (h : s.holding = true) (n : Nat) : trace n s = [] := by
  obtain ⟨hr, hl, hb, hline, htail⟩ := s.holding_iff.mp h
  have noEvent : stepEvents s = [] :=
    (stepEvents_op hr hl hb decodeByte_read).trans (instrEvents_read_hold hline htail)
  induction n with
  | zero => rfl
  | succ n ih => rw [trace_succ_of_step (step_holding h), noEvent, ih, List.append_nil]

/-- Once a line or the end of the input is there, a READ completes (R71, R73). -/
theorem read_completes {s : State} (hr : s.run = .running) (hl : s.ip < s.progLen)
    (hb : s.prog.read s.ip = some 0x01#8) (hinput : s.inputLine ≠ .hold) :
    s.holding = false ∧ ∃ t, step s = .next t ∧ t.ip = s.ip + 1 ∧ t.depth = s.depth + 1 := by
  have notHolding : s.holding = false := Bool.eq_false_iff.mpr fun holding => by
    obtain ⟨_, _, _, noInput⟩ := s.holding_iff.mp holding
    exact hinput (s.inputLine_hold_iff.mpr noInput)
  obtain ⟨t, hexec⟩ := exec_next .read s
  refine ⟨notHolding, t, (step_op s _ .read hr hl hb rfl).trans hexec, ?_⟩
  rcases execRead_cases hexec with ⟨hold, _⟩ | ⟨_, v, k, _, rfl⟩
  · exact absurd hold hinput
  · exact ⟨rfl, rfl⟩

/-- What a core that waited is given is there for it. -/
theorem State.inputLine_supplyInput {s : State} {more : List Line} {tail : InputTail} (hk : s.k = s.lines.length)
    (arrives : more ≠ [] ∨ tail = .eoi) : (s.supplyInput more tail).inputLine ≠ .hold := by
  rw [Ne, State.inputLine_hold_iff, State.supplyInput_lines, State.supplyInput_k, State.supplyInput_tail, hk]
  rintro ⟨hline, rfl⟩
  rcases arrives with lines | hend
  · have noMore : (s.lines ++ more).length ≤ s.lines.length := List.getElem?_eq_none_iff.mp hline
    rw [List.length_append] at noMore
    exact lines (List.eq_nil_of_length_eq_zero (by omega))
  · cases hend

/-- Settles O28: a holding core stays and makes no event; with more input its READ is no hold any more. -/
theorem holdLastsUntilInputArrives : Obligations.HoldLastsUntilInputArrives := by
  intro s holding
  obtain ⟨hr, hl, hb, _⟩ := s.holding_iff.mp holding
  exact ⟨fun n => ⟨steps_holding holding n, trace_holding holding n⟩, State.statusPort_of_running hr, holding,
    fun more tail hk arrives =>
      read_completes (s := s.supplyInput more tail) hr hl hb (State.inputLine_supplyInput hk arrives)⟩

/-! ### The end of the input -/

/-- Where no line is left, none is taken. -/
theorem step_k_of_no_line {s t : State} (h : step s = .next t) (hline : s.lines[s.k]? = none) : t.k = s.k := by
  cases stepCase_of_step h with
  | terminal _ | endOfBuffer _ _ => rfl
  | fetched b t _ _ _ hc =>
    cases hc with
    | readLine l hl =>
      rw [hline] at hl
      cases hl
    | readEoi | readHold | print | printFault | add | addFault | halt | unknown => rfl

theorem steps_k_of_no_line {n : Nat} {s t : State} (h : steps n s = .next t) (hline : s.lines[s.k]? = none) :
    t.lines[t.k]? = none ∧ t.k = s.k := by
  refine steps_induction (P := fun u => u.lines[u.k]? = none ∧ u.k = s.k) (fun u v hstep hu => ?_) n s t h ⟨hline, rfl⟩
  obtain ⟨_, _, hlines, _⟩ := step_keeps_parameters hstep
  have stays := step_k_of_no_line hstep hu.1
  rw [hlines, stays]
  exact hu

/-- READs at the end of the input push a row of zeros (R73, D8). -/
theorem steps_reads_eoi (n : Nat) {s : State} (row : s.rowOf 0x01#8 n) (hr : s.run = .running)
    (hline : s.lines[s.k]? = none) (htail : s.tail = .eoi) :
    steps n s = .next { s with ip := s.ip + n, stack := List.replicate n 0x00#8 ++ s.stack } := by
  induction n generalizing s with
  | zero => rfl
  | succ n ih =>
    obtain ⟨hl, hb⟩ := State.rowOf_head row
    have first := step_of_fetchCase (.readEoi hline htail) hr hl hb
    have later := ih (State.rowOf_tail row first rfl) hr hline htail
    rw [steps_succ_of_step first, later]
    simp [Nat.add_assoc, Nat.add_comm 1, List.replicate_succ']

/-- Settles O29: the cursor stays where no line is left, so whatever ran, a READ finds the end of the input. -/
theorem endOfInputIsPermanent : Obligations.EndOfInputIsPermanent := by
  refine ⟨fun n s t hline htail h => ?_, fun n s hr hline htail hlen hread =>
    steps_reads_eoi n ⟨hlen, hread⟩ hr hline htail⟩
  obtain ⟨hline', hk⟩ := steps_k_of_no_line h hline
  obtain ⟨_, _, _, sameTail⟩ := steps_keep_parameters h
  have htail' : t.tail = .eoi := sameTail.trans htail
  have notHolding : t.holding = false := Bool.eq_false_iff.mpr fun holding => by
    obtain ⟨_, _, _, _, hpending⟩ := t.holding_iff.mp holding
    rw [htail'] at hpending
    cases hpending
  exact ⟨hline', htail', hk, notHolding, execRead_eoi t hline' htail',
    fun hr hl hb => step_of_fetchCase (.readEoi hline' htail') hr hl hb⟩

end Sys2Proof.Machine
end

section
/-! PROOFS. The input stream, cut into lines and read one transfer at a time (20_memory.md sections 5 and 8). -/

namespace Sys2Proof.Machine

/-! ### Cutting a stream -/

theorem cutFrom_terminator (tail : InputTail) (acc : Line) (bs : List Byte) :
    cutFrom tail acc (lineTerminator :: bs) = acc :: cutFrom tail [] bs :=
  if_pos rfl

theorem cutFrom_data {b : Byte} (h : b ≠ lineTerminator) (tail : InputTail) (acc : Line) (bs : List Byte) :
    cutFrom tail acc (b :: bs) = cutFrom tail (acc ++ [b]) bs :=
  if_neg h

theorem cutFrom_nil (tail : InputTail) (acc : Line) :
    cutFrom tail acc [] = if tail = .eoi ∧ acc ≠ [] then [acc] else [] := by
  cases tail with
  | pending => rfl
  | eoi => by_cases h : acc = [] <;> simp [cutFrom, h]

/-- A stream, behind the bytes `acc` of the line begun so far, is whole lines, each with its terminator, and a last piece
without one; the lines it is cut into are those, and the last piece where the input ends behind it. -/
theorem cutFrom_pieces (tail : InputTail) (stream : List Byte) (acc : Line) (hacc : lineTerminator ∉ acc) :
    ∃ (whole : List Line) (last : Line),
      acc ++ stream = (whole.map fun l => l ++ [lineTerminator]).flatten ++ last ∧
      (∀ l ∈ whole, lineTerminator ∉ l) ∧ lineTerminator ∉ last ∧
      cutFrom tail acc stream = whole ++ (if tail = .eoi ∧ last ≠ [] then [last] else []) := by
  induction stream generalizing acc with
  | nil => exact ⟨[], acc, List.append_nil acc, List.forall_mem_nil _, hacc, cutFrom_nil tail acc⟩
  | cons b bs ih =>
    by_cases hb : b = lineTerminator
    · obtain ⟨whole, last, hstream, hwhole, hlast, hcut⟩ := ih [] List.not_mem_nil
      refine ⟨acc :: whole, last, ?_, List.forall_mem_cons.mpr ⟨hacc, hwhole⟩, hlast, ?_⟩
      · rw [List.nil_append] at hstream
        simp [hb, hstream]
      · rw [hb, cutFrom_terminator, hcut, List.cons_append]
    · have hacc' : lineTerminator ∉ acc ++ [b] := by simp [hacc, Ne.symm hb]
      rw [cutFrom_data hb, List.append_cons]
      exact ih (acc ++ [b]) hacc'

/-- The lines of a stream hold no terminator (R35). -/
theorem not_mem_of_mem_cutStream {tail : InputTail} {stream : List Byte} {l : Line} (h : l ∈ cutStream tail stream) :
    lineTerminator ∉ l := by
  obtain ⟨whole, last, _, hwhole, hlast, hcut⟩ := cutFrom_pieces tail stream [] List.not_mem_nil
  rw [cutStream, hcut, List.mem_append] at h
  rcases h with hmem | hmem
  · exact hwhole l hmem
  · split at hmem
    · exact List.mem_singleton.mp hmem ▸ hlast
    · cases hmem

/-- The value of a line is 0 or one of its bytes (R71). -/
theorem lineValue_ne_terminator {l : Line} (h : lineTerminator ∉ l) : lineValue l ≠ lineTerminator := by
  cases l with
  | nil => decide
  | cons b bs => exact fun heq => h (List.mem_cons.mpr (.inl heq.symm))

/-- Settles O32: the pieces of the stream behind no bytes at all; so no line holds the terminator, and 0x0D stays in its
line. -/
theorem streamIsCutAtTheTerminator : Obligations.StreamIsCutAtTheTerminator :=
  ⟨fun tail stream => cutFrom_pieces tail stream [] List.not_mem_nil,
    fun _ _ _ hl => lineValue_ne_terminator (not_mem_of_mem_cutStream hl),
    fun tail => by cases tail <;> decide⟩

/-! ### READ on single transfers -/

theorem skipLine_terminator (tail : InputTail) (v : Byte) (bs : List Byte) :
    skipLine tail v (lineTerminator :: bs) = .got v bs :=
  if_pos rfl

theorem skipLine_data {b : Byte} (h : b ≠ lineTerminator) (tail : InputTail) (v : Byte) (bs : List Byte) :
    skipLine tail v (b :: bs) = skipLine tail v bs :=
  if_neg h

/-- Inside a line that begins with `v`, the transfers up to its end are the line, and the rest is cut afresh. -/
theorem cutFrom_of_skipLine_got {tail : InputTail} {v w : Byte} {stream rest : List Byte}
    (h : skipLine tail v stream = .got w rest) (acc : Line) :
    w = v ∧ ∃ l, cutFrom tail (v :: acc) stream = (v :: l) :: cutStream tail rest := by
  induction stream generalizing acc with
  | nil =>
    cases tail with
    | eoi =>
      cases h
      exact ⟨rfl, acc, rfl⟩
    | pending => cases h
  | cons b bs ih =>
    by_cases hb : b = lineTerminator
    · rw [hb, skipLine_terminator] at h
      cases h
      exact ⟨rfl, acc, by rw [hb, cutFrom_terminator, cutStream]⟩
    · rw [skipLine_data hb] at h
      rw [cutFrom_data hb, List.cons_append]
      exact ih h (acc ++ [b])

theorem cutFrom_of_skipLine_hold {tail : InputTail} {v : Byte} {stream : List Byte} (h : skipLine tail v stream = .hold)
    (acc : Line) : tail = .pending ∧ cutFrom tail acc stream = [] := by
  induction stream generalizing acc with
  | nil =>
    cases tail with
    | eoi => cases h
    | pending => exact ⟨rfl, rfl⟩
  | cons b bs ih =>
    by_cases hb : b = lineTerminator
    · rw [hb, skipLine_terminator] at h
      cases h
    · rw [skipLine_data hb] at h
      rw [cutFrom_data hb]
      exact ih h (acc ++ [b])

theorem readTransfers_terminator (tail : InputTail) (bs : List Byte) :
    readTransfers tail (lineTerminator :: bs) = .got 0x00#8 bs := by
  rw [readTransfers, if_pos rfl]

theorem readTransfers_data {b : Byte} (h : b ≠ lineTerminator) (tail : InputTail) (bs : List Byte) :
    readTransfers tail (b :: bs) = skipLine tail b bs := by
  rw [readTransfers, if_neg h]

/-- What READ takes off the stream is the first line it is cut into, or nothing at the end of the input. -/
theorem cutStream_of_readTransfers_got {tail : InputTail} {v : Byte} {stream rest : List Byte}
    (h : readTransfers tail stream = .got v rest) :
    (∃ l, cutStream tail stream = l :: cutStream tail rest ∧ v = lineValue l) ∨
    (tail = .eoi ∧ stream = [] ∧ rest = [] ∧ v = 0x00#8) := by
  cases stream with
  | nil =>
    cases tail with
    | eoi =>
      cases h
      exact .inr ⟨rfl, rfl, rfl, rfl⟩
    | pending => cases h
  | cons b bs =>
    by_cases hb : b = lineTerminator
    · rw [hb, readTransfers_terminator] at h
      cases h
      exact .inl ⟨[], by rw [hb, cutStream, cutFrom_terminator, cutStream], rfl⟩
    · rw [readTransfers_data hb] at h
      obtain ⟨rfl, l, hcut⟩ := cutFrom_of_skipLine_got h []
      exact .inl ⟨v :: l, by rw [cutStream, cutFrom_data hb, List.nil_append, hcut], rfl⟩

theorem cutStream_of_readTransfers_hold {tail : InputTail} {stream : List Byte} (h : readTransfers tail stream = .hold) :
    tail = .pending ∧ cutStream tail stream = [] := by
  cases stream with
  | nil =>
    cases tail with
    | eoi => cases h
    | pending => exact ⟨rfl, rfl⟩
  | cons b bs =>
    by_cases hb : b = lineTerminator
    · rw [hb, readTransfers_terminator] at h
      cases h
    · rw [readTransfers_data hb] at h
      rw [cutStream, cutFrom_data hb]
      exact cutFrom_of_skipLine_hold h _

/-- Settles O33: the two answers of the byte-level READ. -/
theorem byteLevelReadAgreesWithLineRead : Obligations.ByteLevelReadAgreesWithLineRead := by
  intro tail stream
  cases h : readTransfers tail stream with
  | got v rest => exact cutStream_of_readTransfers_got h
  | hold => exact cutStream_of_readTransfers_hold h

end Sys2Proof.Machine
end

section
/-! PROOFS. Trimming, and the grammar of an assembler line (30_encoding.md section 4, R49 to R53). -/

namespace Sys2Proof.Machine

/-! ### Whitespace at both ends -/

/-- Whitespace and nothing else (R49). -/
def blank (l : Line) : Prop := ∀ b ∈ l, isSpace b = true

theorem isSpace_iff (b : Byte) : isSpace b = true ↔ b = 0x20#8 ∨ b = 0x09#8 ∨ b = 0x0D#8 ∨ b = 0x0A#8 := by
  simp [isSpace, or_assoc]

theorem trim_eq_rdropWhile (l : Line) : trim l = (l.dropWhile isSpace).rdropWhile isSpace := rfl

theorem blank_takeWhile (l : Line) : blank (l.takeWhile isSpace) := fun _ hb => List.mem_takeWhile_imp hb

theorem blank_rtakeWhile (l : Line) : blank (l.rtakeWhile isSpace) := fun _ hb => List.mem_rtakeWhile_imp hb

/-- A line is its trimmed text between whitespace (R49). -/
theorem eq_blank_trim_blank (l : Line) :
    l = l.takeWhile isSpace ++ trim l ++ (l.dropWhile isSpace).rtakeWhile isSpace := by
  rw [trim_eq_rdropWhile, List.append_assoc, List.rdropWhile_append_rtakeWhile, List.takeWhile_append_dropWhile]

theorem head_trim {l : Line} {b : Byte} (h : (trim l).head? = some b) : isSpace b = false := by
  obtain ⟨back, hback⟩ := (l.dropWhile isSpace).rdropWhile_prefix isSpace
  have atHead : (l.dropWhile isSpace).head? = some b := by
    rw [← hback, ← trim_eq_rdropWhile, List.head?_append, h]
    rfl
  have noSpace := List.head?_dropWhile_not isSpace l
  rw [atHead] at noSpace
  exact noSpace

theorem getLast_trim {l : Line} {b : Byte} (h : (trim l).getLast? = some b) : isSpace b = false := by
  obtain ⟨hne, rfl⟩ := List.mem_getLast?_eq_getLast h
  exact Bool.eq_false_iff.mpr (List.rdropWhile_last_not isSpace (l.dropWhile isSpace) hne)

/-- Settles O56: the text between the whitespace taken off both ends, which neither begins nor ends with any. -/
theorem trimRemovesWhitespaceFromBothEnds : Obligations.TrimRemovesWhitespaceFromBothEnds :=
  ⟨isSpace_iff, fun l => ⟨_, _, eq_blank_trim_blank l, blank_takeWhile l, blank_rtakeWhile _, fun _ => head_trim,
    fun _ => getLast_trim⟩⟩

/-! ### The trimmed text of a line of a given form -/

theorem dropWhile_blank_append {before : Line} (h : blank before) (l : Line) :
    (before ++ l).dropWhile isSpace = l.dropWhile isSpace :=
  List.dropWhile_append_of_pos h

theorem rdropWhile_append_blank {after : Line} (h : blank after) (l : Line) :
    (l ++ after).rdropWhile isSpace = l.rdropWhile isSpace := by
  have hrev : ∀ b ∈ after.reverse, isSpace b = true := fun b hb => h b (List.mem_reverse.mp hb)
  rw [List.rdropWhile, List.reverse_append, List.dropWhile_append_of_pos hrev, List.rdropWhile]

/-- Only whitespace is trimmed off whitespace around a text that begins and ends with none. -/
theorem trim_of_blank_text_blank {before text after : Line} {b : Byte} (hbefore : blank before) (hafter : blank after)
    (hhead : text.head? = some b) (hb : isSpace b = false) (hlast : text.rdropWhile isSpace = text) :
    trim (before ++ text ++ after) = text := by
  obtain ⟨front, rfl⟩ := List.head?_eq_some_iff.mp hhead
  rw [trim_eq_rdropWhile, List.append_assoc, dropWhile_blank_append hbefore, List.cons_append,
    List.dropWhile_cons_of_neg (by simp [hb]), ← List.cons_append, rdropWhile_append_blank hafter, hlast]

/-- Behind whitespace, the first byte that is none is kept. -/
theorem trim_of_blank_cons {before rest : Line} {b : Byte} (hbefore : blank before) (hb : isSpace b = false) :
    ∃ cs, trim (before ++ b :: rest) = b :: cs := by
  have kept : trim (before ++ b :: rest) = (b :: rest).rdropWhile isSpace := by
    rw [trim_eq_rdropWhile, dropWhile_blank_append hbefore, List.dropWhile_cons_of_neg (by simp [hb])]
  rw [kept]
  rcases hrest : (b :: rest).rdropWhile isSpace with _ | ⟨c, cs⟩
  · have := List.rdropWhile_eq_nil_iff.mp hrest b List.mem_cons_self
    rw [hb] at this
    cases this
  · obtain ⟨back, hback⟩ := (b :: rest).rdropWhile_prefix isSpace
    rw [hrest, List.cons_append] at hback
    exact ⟨cs, by rw [(List.cons.inj hback).1]⟩

theorem trim_eq_nil_iff (l : Line) : trim l = [] ↔ blank l := by
  constructor
  · intro h b hb
    rw [eq_blank_trim_blank l, h, List.append_nil, List.mem_append] at hb
    exact hb.elim (blank_takeWhile l b) (blank_rtakeWhile _ b)
  · intro h
    rw [trim_eq_rdropWhile, List.dropWhile_eq_nil_iff.mpr h]
    rfl

/-! ### The classes of a line -/

theorem classifyLine_blank {l : Line} (h : trim l = []) : classifyLine l = .skip := by
  rw [classifyLine, h]

theorem classifyLine_comment {l cs : Line} (h : trim l = commentMark :: cs) : classifyLine l = .skip := by
  rw [classifyLine, h]
  exact if_pos rfl

theorem classifyLine_text {l cs : Line} {c : Byte} (h : trim l = c :: cs) (hc : c ≠ commentMark) :
    classifyLine l = (lookupMnemonic (trim l)).elim (.bad (trim l)) .instr := by
  rw [classifyLine, h]
  simp only [if_neg hc]
  cases lookupMnemonic (c :: cs) <;> rfl

/-- A line is skipped when nothing is left of it, or a comment (R50). -/
theorem classifyLine_eq_skip_iff (l : Line) :
    classifyLine l = .skip ↔ trim l = [] ∨ ∃ cs, trim l = commentMark :: cs := by
  constructor
  · intro h
    rcases htrim : trim l with _ | ⟨c, cs⟩
    · exact .inl rfl
    · by_cases hc : c = commentMark
      · exact .inr ⟨cs, by rw [hc]⟩
      · rw [classifyLine_text htrim hc] at h
        cases hi : lookupMnemonic (trim l) <;> rw [hi] at h <;> cases h
  · rintro (h | ⟨cs, h⟩)
    · exact classifyLine_blank h
    · exact classifyLine_comment h

/-- A mnemonic begins and ends with a letter, and is no comment. -/
theorem mnemonicKey_text (i : Instr) :
    ∃ c cs, mnemonicKey i = c :: cs ∧ c ≠ commentMark ∧ isSpace c = false ∧
      (mnemonicKey i).rdropWhile isSpace = mnemonicKey i := by
  cases i <;> exact ⟨_, _, rfl, by decide, by decide, by decide⟩

/-- A line gives an instruction when its trimmed text is that mnemonic (R51). -/
theorem classifyLine_eq_instr_iff (l : Line) (i : Instr) : classifyLine l = .instr i ↔ trim l = mnemonicKey i := by
  constructor
  · intro h
    rcases htrim : trim l with _ | ⟨c, cs⟩
    · rw [classifyLine_blank htrim] at h
      cases h
    · by_cases hc : c = commentMark
      · rw [classifyLine_comment (hc ▸ htrim)] at h
        cases h
      · rw [classifyLine_text htrim hc, htrim] at h
        cases hi : lookupMnemonic (c :: cs) with
        | none =>
          rw [hi] at h
          cases h
        | some j =>
          rw [hi] at h
          cases h
          exact (lookupMnemonic_eq_some_iff _ _).mp hi
  · intro h
    obtain ⟨c, cs, hkey, hc, _⟩ := mnemonicKey_text i
    rw [classifyLine_text (h.trans hkey) hc, (lookupMnemonic_eq_some_iff _ _).mpr h]
    rfl

/-- A comment is a `#` behind whitespace (R50). -/
theorem trim_comment_iff (l : Line) :
    (∃ cs, trim l = commentMark :: cs) ↔ ∃ before rest, blank before ∧ l = before ++ commentMark :: rest := by
  constructor
  · rintro ⟨cs, h⟩
    have parts := eq_blank_trim_blank l
    rw [h, List.append_assoc] at parts
    exact ⟨_, _, blank_takeWhile l, parts⟩
  · rintro ⟨before, rest, hbefore, rfl⟩
    exact trim_of_blank_cons hbefore rfl

/-- A mnemonic is the trimmed text of exactly the lines that hold it between whitespace. -/
theorem trim_eq_mnemonicKey_iff (l : Line) (i : Instr) :
    trim l = mnemonicKey i ↔ ∃ before after, blank before ∧ blank after ∧ l = before ++ mnemonicKey i ++ after := by
  constructor
  · intro h
    exact ⟨_, _, blank_takeWhile l, blank_rtakeWhile _, h ▸ eq_blank_trim_blank l⟩
  · rintro ⟨before, after, hbefore, hafter, rfl⟩
    obtain ⟨c, cs, hkey, _, hspace, hlast⟩ := mnemonicKey_text i
    exact trim_of_blank_text_blank hbefore hafter (by rw [hkey]; rfl) hspace hlast

/-- Settles O57: what a line is depends on its trimmed text, and the trimmed texts of blank lines, comments and
instruction lines are those of the forms stated; every other line is bad. -/
theorem assemblerGrammar : Obligations.AssemblerGrammar := by
  intro l
  refine ⟨?_, fun i => ?_, fun text => ⟨fun h => ?_, ?_⟩⟩
  · rw [classifyLine_eq_skip_iff, trim_eq_nil_iff, trim_comment_iff]
    rfl
  · rw [classifyLine_eq_instr_iff, trim_eq_mnemonicKey_iff]
    rfl
  · exact ⟨by simp [h], by simp [h], text_eq_trim_of_bad h⟩
  · rintro ⟨notSkip, notInstr, rfl⟩
    cases h : classifyLine l with
    | skip => exact absurd h notSkip
    | instr i => exact absurd h (notInstr i)
    | bad text => rw [text_eq_trim_of_bad h]

end Sys2Proof.Machine
end
